-- ==== Sys2Proof/Word.lean ====
section
/-! DEFINITION. The machine's one data unit, the 16-bit Word (00_scope.md R8, R10, R13). -/

namespace Sys2Proof

/-- The Word: "16-bit unsigned value, the machine's native data unit" (R13). Bit 0 is the least significant bit
(R9). `+` and `-` on it are the spec's `+16` and `-16`, modulo 2^16 (R10). -/
abbrev Word := BitVec 16

/-- `zext_16(v)`: widens an unsigned value with zeros (R9). -/
abbrev zext16 {w : Nat} (v : BitVec w) : Word := v.setWidth 16

end Sys2Proof
end

