-- ==== Sys2Proof/Config.lean ====
section
/-! DEFINITION. What is fixed for the machine, what the model names where the spec leaves the initial state open,
and the one free value. -/

namespace Sys2Proof

/-- Memory size in Words: addresses 0..65535 (R8, R50). -/
abbrev Config.memWords : Nat := 65536

/-- The number of operand codes, 0..63 (R8, R70). -/
abbrev Config.codeCount : Nat := 64

/-- What every register holds in `State.reset`. The spec gives no value (R220, the OPEN parameter `initState`).
DESIGN CHOICE, unsafe: notes/assumptions/4.md. -/
abbrev Config.resetWord : Word := 0

/-- What a Word of memory that is not listed reads as. The spec gives no initial content (R220).
DESIGN CHOICE, unsafe: notes/assumptions/5.md. Every memory content can still be written out, by listing it. -/
abbrev Config.unlistedWord : Word := 0

/-- FREE VALUE. The `rdata` output when the step delivered no READ value: "unspecified after WRITE" (R36, R104, U6),
and not stated for a step without a transaction. It has no body; the step applies it to `State.freeCount`.
DESIGN CHOICE, safe: notes/assumptions/3.md. -/
opaque Config.rdataUnspecified : Nat → Word

end Sys2Proof
end

