-- ==== Sys2Proof/Syntax.lean ====
section
/-! DEFINITION. The instruction set: the twelve addressing modes of the operand code (R75), the two transactions
(R110), the twelve TYPE tags (R78), and the request a caller makes (R35). -/

namespace Sys2Proof

/-- The addressing mode one operand code selects, one constructor per row of the table of R75. A register index is
in 0..7 and a literal in 0..31 by its type (R72, R73, R25): notes/assumptions/8.md. -/
inductive Instr where
  /-- 0x00..0x07, direct register (R120, R121). -/
  | reg (r : Fin 8)
  /-- 0x08..0x0F, indirect register (R123, R124). -/
  | indReg (r : Fin 8)
  /-- 0x10..0x17, indirect register plus next word (R125, R126). -/
  | indRegNext (r : Fin 8)
  /-- 0x18 (R140, R141). -/
  | pop
  /-- 0x19 (R143, R144). -/
  | peek
  /-- 0x1A (R146, R147). -/
  | push
  /-- 0x1B (R160, R161). -/
  | sp
  /-- 0x1C (R163, R164). -/
  | pc
  /-- 0x1D (R166, R167). -/
  | o
  /-- 0x1E, next word indirect (R180, R181). -/
  | indNext
  /-- 0x1F, next word immediate (R183, R184). -/
  | next
  /-- 0x20..0x3F, literal (R186, R187). -/
  | literal (lit : BitVec 5)
  deriving DecidableEq, Repr

/-- The `op` input: which of the two transactions is asked for (R35). -/
inductive Op where
  | read
  | write
  deriving DecidableEq, Repr

/-- The TYPE tags, one per row (R78, C1). Their values are the spec's own choice and no statement depends on them
(D3): notes/assumptions/9.md. -/
inductive Tag where
  | reg
  | indReg
  | indRegNext
  | pop
  | peek
  | push
  | sp
  | pc
  | o
  | indNext
  | next
  | literal
  deriving DecidableEq, Repr

/-- What the caller presents for one step (R35). `code` is a plain number: the caller's side of the boundary, where
a value that the 6-bit port cannot carry is still possible and is refused (R81, R202). -/
structure Request where
  start : Bool
  code  : Nat
  op    : Op
  wdata : Word
  deriving DecidableEq, Repr

end Sys2Proof
end

