-- ==== Sys2Proof/WellFormed.lean ====
section
/-! DEFINITION. The one precondition on what a caller presents: the operand code is in 0..63 (R81, R202, U2). The
other precondition of the spec, a register index in 0..7 (R25, U1), is the type of `Instr`'s operand. -/

namespace Sys2Proof

/-- The request's code fits the 6-bit `code` port (R81). -/
def Request.wellFormed (q : Request) : Bool :=
  decide (q.code < Config.codeCount)

end Sys2Proof
end

