-- ==== Sys2Proof/Decode.lean ====
section
/-! DEFINITION. From the 6-bit operand code to the addressing mode and back (30_encoding.md), the boundary that
refuses a wider number by name, and the table of rows as the spec writes it. -/

namespace Sys2Proof

/-- `code[2:0]`: the register index of format G, the selector of format S (R71, R72). -/
def codeLow (c : BitVec 6) : Fin 8 :=
  (c.extractLsb' 0 3).toFin

/-- `code[4:0]`: the literal of format L (R71, R73). -/
def codeLiteral (c : BitVec 6) : BitVec 5 :=
  c.extractLsb' 0 5

/-- Format S: the selector names the mode (R71). -/
def decodeSpecial (sel : Fin 8) : Instr :=
  match sel with
  | 0 => .pop
  | 1 => .peek
  | 2 => .push
  | 3 => .sp
  | 4 => .pc
  | 5 => .o
  | 6 => .indNext
  | 7 => .next

/-- The constant decode of the operand code (R71, R75, R101), read off bits 5, 4 and 3. Every code has a mode
(R80) and nothing but the code selects it (R70). -/
def decodeCode (c : BitVec 6) : Instr :=
  match c.getLsbD 5, c.getLsbD 4, c.getLsbD 3 with
  | true, _, _ => .literal (codeLiteral c)
  | false, false, false => .reg (codeLow c)
  | false, false, true => .indReg (codeLow c)
  | false, true, false => .indRegNext (codeLow c)
  | false, true, true => decodeSpecial (codeLow c)

/-- Why the boundary has no mode for a number. -/
inductive DecodeError where
  /-- The number is outside 0..63: "refuses one outside 0..63 rather than truncating it" (R81). -/
  | codeOutOfRange (code : Nat)
  deriving DecidableEq, Repr

/-- The model's boundary: any number in; a mode, or a rejection by name (R81, R202, D7). -/
def decode (code : Nat) : Except DecodeError Instr :=
  if code < Config.codeCount then .ok (decodeCode (BitVec.ofNat 6 code))
  else .error (.codeOutOfRange code)

/-- The operand code of a mode, from the formats of R71. -/
def encode (i : Instr) : BitVec 6 :=
  match i with
  | .reg r => 0b000#3 ++ BitVec.ofNat 3 r.val
  | .indReg r => 0b001#3 ++ BitVec.ofNat 3 r.val
  | .indRegNext r => 0b010#3 ++ BitVec.ofNat 3 r.val
  | .pop => 0b011000#6
  | .peek => 0b011001#6
  | .push => 0b011010#6
  | .sp => 0b011011#6
  | .pc => 0b011100#6
  | .o => 0b011101#6
  | .indNext => 0b011110#6
  | .next => 0b011111#6
  | .literal l => 0b1#1 ++ l

/-- The host's reading of a row of the opcode table: the row's bits are the operand code. A code is presented whole
on one port and is stored nowhere, so its bits are the number the boundary takes (R70, R81). -/
def decodeTableWord (_nbits w : Nat) : Option Instr :=
  (decode w).toOption

/-- SIZE: how many next words the mode consumes, 0 or 1 (R76, R105). -/
def Instr.size (i : Instr) : BitVec 1 :=
  match i with
  | .reg _ => 0
  | .indReg _ => 0
  | .indRegNext _ => 1
  | .pop => 0
  | .peek => 0
  | .push => 0
  | .sp => 0
  | .pc => 0
  | .o => 0
  | .indNext => 1
  | .next => 1
  | .literal _ => 0

/-- TYPE: the tag that names the mode's row (R78, R106). -/
def Instr.tag (i : Instr) : Tag :=
  match i with
  | .reg _ => .reg
  | .indReg _ => .indReg
  | .indRegNext _ => .indRegNext
  | .pop => .pop
  | .peek => .peek
  | .push => .push
  | .sp => .sp
  | .pc => .pc
  | .o => .o
  | .indNext => .indNext
  | .next => .next
  | .literal _ => .literal

/-- A tag on the 4-bit `tag` output (R78). The values are the spec's own choice (D3): notes/assumptions/9.md. -/
def Tag.encoding (g : Tag) : BitVec 4 :=
  match g with
  | .reg => 0
  | .indReg => 1
  | .indRegNext => 2
  | .pop => 3
  | .peek => 4
  | .push => 5
  | .sp => 6
  | .pc => 7
  | .o => 8
  | .indNext => 9
  | .next => 10
  | .literal => 11

/-- The tag's name (R78), also the row's mnemonic in the opcode table. -/
def Tag.name (g : Tag) : String :=
  match g with
  | .reg => "REG"
  | .indReg => "IND_REG"
  | .indRegNext => "IND_REG_NEXT"
  | .pop => "POP"
  | .peek => "PEEK"
  | .push => "PUSH"
  | .sp => "SP"
  | .pc => "PC"
  | .o => "O"
  | .indNext => "IND_NEXT"
  | .next => "NEXT"
  | .literal => "LITERAL"

/-- The `op` input as its bit: READ = 0, WRITE = 1 (R35). -/
def Op.bit (op : Op) : BitVec 1 :=
  match op with
  | .read => 0
  | .write => 1

/-- The operand's assembler spelling (R83, D12), for a reader only: notes/assumptions/20.md. -/
def Instr.spelling (i : Instr) : String :=
  match i with
  | .reg r => "R" ++ toString r.val
  | .indReg r => "[R" ++ toString r.val ++ "]"
  | .indRegNext r => "[next + R" ++ toString r.val ++ "]"
  | .pop => "POP"
  | .peek => "PEEK"
  | .push => "PUSH"
  | .sp => "SP"
  | .pc => "PC"
  | .o => "O"
  | .indNext => "[next]"
  | .next => "next"
  | .literal l => "#" ++ toString l.toNat

/-- The words one instruction occupies, from its two operand codes (R76, R77): the opcode word and each operand's
next word. -/
def instructionWords (first second : BitVec 6) : Nat :=
  1 + (decodeCode first).size.toNat + (decodeCode second).size.toNat

/-- One row of the table of R75 with the columns of the opcode table. -/
structure Row where
  tag      : Tag
  pattern  : BitVec 6
  mask     : BitVec 6
  size     : BitVec 1
  writable : Bool
  deriving DecidableEq, Repr

/-- The table of R75, the normative map (C1), row by row; ranges are inclusive (C8). A second reading of the spec
beside `decodeCode`, against which the decode is checked. -/
def opcodeRows : List Row :=
  [ ⟨.reg, 0x00, 0x38, 0, true⟩,
    ⟨.indReg, 0x08, 0x38, 0, true⟩,
    ⟨.indRegNext, 0x10, 0x38, 1, true⟩,
    ⟨.pop, 0x18, 0x3F, 0, false⟩,
    ⟨.peek, 0x19, 0x3F, 0, false⟩,
    ⟨.push, 0x1A, 0x3F, 0, false⟩,
    ⟨.sp, 0x1B, 0x3F, 0, true⟩,
    ⟨.pc, 0x1C, 0x3F, 0, true⟩,
    ⟨.o, 0x1D, 0x3F, 0, true⟩,
    ⟨.indNext, 0x1E, 0x3F, 1, true⟩,
    ⟨.next, 0x1F, 0x3F, 1, false⟩,
    ⟨.literal, 0x20, 0x20, 0, false⟩ ]

/-- The code lies in the row's range. -/
def Row.covers (row : Row) (c : BitVec 6) : Bool :=
  c &&& row.mask == row.pattern

end Sys2Proof
end

