-- ==== Sys2Proof/Machine/State.lean ====
section
/-! DEFINITION. The state as plain data: the CPU state `S` of R22, the ports of R35 to R37, the caller's schedule
(D4); the reasons a step can stop; and the machine after reset. -/

namespace Sys2Proof.Machine

/-- One Word of memory at a word address. Memory has no byte view (R52, D6): notes/assumptions/6.md. -/
abbrev WordCell := Nat × Word

/-- Memory: the listed Words by rising address; an unlisted Word reads as `Config.unlistedWord` (R33, R50). -/
abbrev Memory := List WordCell

/-- The CPU state the block operates on, the record `S` of R22. -/
structure Cpu where
  /-- The eight general registers (R24). -/
  x   : Vector Word 8
  /-- The stack pointer (R26). -/
  sp  : Word
  /-- The program counter (R27). -/
  pc  : Word
  /-- The overflow register, a full Word (R28, R29, C7). -/
  o   : Word
  /-- The memory (R33). -/
  mem : Memory
  deriving DecidableEq, Repr

/-- One call on the block's register-file port or memory port, named as the accessors of R23 are. -/
inductive Access where
  | register (i : Fin 8)
  | setRegister (i : Fin 8) (v : Word)
  | getStackPointer
  | setStackPointer (v : Word)
  | getStackPointerAndIncrement
  | getStackPointerAndDecrement
  | getProgramCounter
  | setProgramCounter (v : Word)
  | getNextProgramCounter
  | getOverflow
  | setOverflow (v : Word)
  | readFrom (a : Word)
  | writeAt (a v : Word)
  deriving DecidableEq, Repr

/-- A transaction under way: the CPU state, and the accessor calls made so far, in order (R23, R57). -/
structure Tx where
  cpu : Cpu
  log : List Access
  deriving DecidableEq, Repr

/-- The block's input ports (R35). -/
structure InPorts where
  code  : BitVec 6
  op    : Op
  wdata : Word
  start : Bool
  deriving DecidableEq, Repr

structure State where
  /-- The CPU state (R22). -/
  cpu       : Cpu
  /-- The input ports at their values in the last step (R35). -/
  inp       : InPorts
  /-- The `rdata` output at its value in the last step (R36). -/
  rdata     : Word
  /-- What the last step did on the register-file and memory ports, in order (R37, R54, R57). -/
  activity  : List Access
  /-- The requests the caller will present, oldest first: `callerSchedule` (D4, R112). -/
  schedule  : List Request
  /-- The model's own counter: how many free values `rdata` has taken (notes/assumptions/3.md). -/
  freeCount : Nat
  deriving DecidableEq, Repr

/-- Faults: none. "A model has no fault outcome for a transaction" (R201; R200). The type is empty, so nothing can
raise one. Safe: notes/assumptions/17.md. -/
inductive Fault where
  deriving DecidableEq, Repr

/-- Refusals. -/
inductive Refusal where
  /-- Raised by an arm of `exec` for an instruction without a meaning. No arm does: every row has its meaning. Safe. -/
  | notModelled (mnemonic : String)
  /-- Raised by the boundary (`issue`) for a presented code outside 0..63, which the 6-bit port cannot carry: "refuses
  such an input by name" (R202; R81, D7, U2). Safe: notes/assumptions/7.md. -/
  | operandCodeOutOfRange (code : Nat)
  deriving DecidableEq, Repr

/-- The input ports with no request on them (R35). DESIGN CHOICE: notes/assumptions/14.md. -/
def InPorts.quiet : InPorts :=
  { code := 0, op := .read, wdata := 0, start := false }

/-- The machine started on ANY CPU state: the spec's OPEN parameter `initState` (R220, R221, D5), with no request
presented yet. Nothing must be initialised for the block's rules to hold (R223). -/
def State.start (initState : Cpu) : State :=
  { cpu := initState, inp := InPorts.quiet, rdata := 0, activity := [], schedule := [], freeCount := 0 }

/-- The one initial CPU state that `State.reset` names. The spec gives no value for any field (R220, N1).
DESIGN CHOICE, unsafe: notes/assumptions/4.md and 5.md. -/
def Cpu.reset : Cpu :=
  { x := #v[Config.resetWord, Config.resetWord, Config.resetWord, Config.resetWord,
            Config.resetWord, Config.resetWord, Config.resetWord, Config.resetWord]
    sp := Config.resetWord, pc := Config.resetWord, o := Config.resetWord, mem := [] }

/-- The machine right after reset. No claim rests on its register values: the statements are for every state. -/
def State.reset : State :=
  State.start Cpu.reset

end Sys2Proof.Machine
end

