-- ==== Sys2Proof/Machine/Ops.lean ====
section
/-! DEFINITION. The named operations over memory, registers and ports: the accessors of R23 through which all state
is read and changed, and the one shape of a transaction (R110).

TAKING AN EXCEPTION AND RETURNING FROM ONE: there is none to write. "There is no trap entry: the block saves no
state, changes no mode or mask, and transfers control nowhere on any event. There is no trap return" (R206; R200,
R203, R205, R207, R208). -/

namespace Sys2Proof.Machine

/-! ### Memory (R50, R51) -/

/-- The Word listed at the key, or what an unlisted Word reads as. -/
def Memory.lookup (m : Memory) (k : Nat) : Word :=
  match m with
  | [] => Config.unlistedWord
  | (j, w) :: rest => if j = k then w else Memory.lookup rest k

/-- Unlists the key. -/
def Memory.unlist (m : Memory) (k : Nat) : Memory :=
  match m with
  | [] => []
  | (j, w) :: rest => if j = k then Memory.unlist rest k else (j, w) :: Memory.unlist rest k

/-- Lists a Word at its place among the rising keys. -/
def Memory.enlist (m : Memory) (k : Nat) (v : Word) : Memory :=
  match m with
  | [] => [(k, v)]
  | (j, w) :: rest => if k < j then (k, v) :: (j, w) :: rest else (j, w) :: Memory.enlist rest k v

/-- `readFrom(address)`: the address is taken modulo 65536 and the read always succeeds (R50). -/
def Memory.read (m : Memory) (a : Nat) : Word :=
  m.lookup (a % Config.memWords)

/-- `writeAt(address, value)`: the address is taken modulo 65536, one cell changes, and the write always succeeds
(R50, R51). Storing what an unlisted Word reads as unlists the cell, so equal memories are equal lists. -/
def Memory.write (m : Memory) (a : Nat) (v : Word) : Memory :=
  let k := a % Config.memWords
  if v = Config.unlistedWord then m.unlist k else (m.unlist k).enlist k v

/-- The canonical form: keys strictly rising, every key a word address, no Word listed that an unlisted one reads
as. -/
abbrev Memory.wf (m : Memory) : Prop :=
  (m.map Prod.fst).Pairwise (· < ·) ∧ ∀ c ∈ m, c.1 < Config.memWords ∧ c.2 ≠ Config.unlistedWord

/-! ### The accessors (R23), each noted on the transaction's log -/

/-- Appends one accessor call to the log. -/
def Tx.note (t : Tx) (a : Access) : Tx :=
  { t with log := t.log ++ [a] }

/-- `register(i)`, the spec's `x[i]` (R11, R25). -/
def Tx.register (t : Tx) (i : Fin 8) : Word × Tx :=
  (t.cpu.x[i], t.note (.register i))

/-- `setRegister(i, value)`, the spec's `x[i] <- v` (R11, R25). -/
def Tx.setRegister (t : Tx) (i : Fin 8) (v : Word) : Tx :=
  { cpu := { t.cpu with x := t.cpu.x.set i v }, log := t.log ++ [.setRegister i v] }

/-- `getStackPointer` (R23). -/
def Tx.getStackPointer (t : Tx) : Word × Tx :=
  (t.cpu.sp, t.note .getStackPointer)

/-- `setStackPointer` (R23). -/
def Tx.setStackPointer (t : Tx) (v : Word) : Tx :=
  { cpu := { t.cpu with sp := v }, log := t.log ++ [.setStackPointer v] }

/-- `SPPostInc()`: "returns the current stack pointer value, then increments it by 1 (wrapping modulo 65536)"
(R11, R62). -/
def Tx.spPostInc (t : Tx) : Word × Tx :=
  (t.cpu.sp, { cpu := { t.cpu with sp := t.cpu.sp + 1 }, log := t.log ++ [.getStackPointerAndIncrement] })

/-- `SPPreDec()`: "decrements the stack pointer by 1 first (wrapping), then returns the new value" (R11, R62). -/
def Tx.spPreDec (t : Tx) : Word × Tx :=
  (t.cpu.sp - 1, { cpu := { t.cpu with sp := t.cpu.sp - 1 }, log := t.log ++ [.getStackPointerAndDecrement] })

/-- `getProgramCounter` (R23). -/
def Tx.getProgramCounter (t : Tx) : Word × Tx :=
  (t.cpu.pc, t.note .getProgramCounter)

/-- `setProgramCounter` (R23). -/
def Tx.setProgramCounter (t : Tx) (v : Word) : Tx :=
  { cpu := { t.cpu with pc := v }, log := t.log ++ [.setProgramCounter v] }

/-- `NextPC()`: `PC +16 1`; "reads PC, writes nothing" (R11, R27). -/
def Tx.nextPC (t : Tx) : Word × Tx :=
  (t.cpu.pc + 1, t.note .getNextProgramCounter)

/-- `MemRead(a, 1)` (R11, R50). -/
def Tx.memRead (t : Tx) (a : Word) : Word × Tx :=
  (t.cpu.mem.read a.toNat, t.note (.readFrom a))

/-- `MemWrite(a, 1, v)` (R11, R50). -/
def Tx.memWrite (t : Tx) (a v : Word) : Tx :=
  { cpu := { t.cpu with mem := t.cpu.mem.write a.toNat v }, log := t.log ++ [.writeAt a v] }

/-! ### What a step does to the ports -/

/-- The caller's request on the input ports (R35). Used only for a code the port can carry. -/
def State.present (s : State) (q : Request) : State :=
  { s with inp := { code := BitVec.ofNat 6 q.code, op := q.op, wdata := q.wdata, start := q.start } }

/-- No request on this step: `start` is low (R35). What the other inputs hold does not matter (R109). -/
def State.deassert (s : State) : State :=
  { s with inp := { s.inp with start := false } }

/-- A step without a transaction: the CPU state is as it was (R109), no accessor is called, and `rdata` is not
stated by the spec. DESIGN CHOICE: notes/assumptions/2.md and 3.md. -/
def State.idle (s : State) : State :=
  { s with
    rdata := Config.rdataUnspecified s.freeCount
    activity := []
    freeCount := s.freeCount + 1 }

/-- A READ: its value on `rdata` (R36, R102). -/
def State.afterRead (s : State) (f : Tx → Word × Tx) : State :=
  let (v, t) := f ⟨s.cpu, []⟩
  { s with cpu := t.cpu, rdata := v, activity := t.log }

/-- A WRITE of the Word on `wdata`: it delivers no value, and `rdata` is unspecified (R103, R104). -/
def State.afterWrite (s : State) (f : Word → Tx → Tx) : State :=
  let t := f s.inp.wdata ⟨s.cpu, []⟩
  { s with
    cpu := t.cpu
    rdata := Config.rdataUnspecified s.freeCount
    activity := t.log
    freeCount := s.freeCount + 1 }

/-- One transaction, one indivisible step (R56, R110): the mode's READ or its WRITE, as `op` says. It always
completes (R200). -/
def transact (rd : Tx → Word × Tx) (wr : Word → Tx → Tx) (s : State) : Host.Outcome State Fault Refusal :=
  match s.inp.op with
  | .read => .next (s.afterRead rd)
  | .write => .next (s.afterWrite wr)

end Sys2Proof.Machine
end

