-- ==== Sys2Proof/Machine/Operands.lean ====
section
/-! DEFINITION. Where an operand lies: the next word (R74) and the effective address of each mode that reaches
memory through a register or the next word (R123 to R126, R180, R181). READ and WRITE of one mode use the same
definition, each at its own time, so a WRITE computes its address from the state at the WRITE (R103). -/

namespace Sys2Proof.Machine

/-- The next word: the Word at `NextPC()` for the PC at this transaction (R74, R185, D4). PC does not move. -/
def nextWord (t : Tx) : Word × Tx :=
  let (p, t) := t.nextPC
  t.memRead p

/-- Codes 0x08..0x0F: the address is `x[r]` (R123, R124). -/
def indRegAddress (r : Fin 8) (t : Tx) : Word × Tx :=
  t.register r

/-- Codes 0x10..0x17: the address is `n +16 x[r]`, `n` the next word (R125, R126). -/
def indRegNextAddress (r : Fin 8) (t : Tx) : Word × Tx :=
  let (n, t) := nextWord t
  let (x, t) := t.register r
  (n + x, t)

/-- Code 0x1E: the address is the next word (R180, R181). -/
def indNextAddress (t : Tx) : Word × Tx :=
  nextWord t

end Sys2Proof.Machine
end

