-- ==== Sys2Proof/Machine/NextWordModes.lean ====
section
/-! DEFINITION. The next-word and literal modes, codes 0x1E..0x3F (44_next_word_and_literal_modes.md). PC never
moves. -/

namespace Sys2Proof.Machine

/-- READ of next word indirect (R180). -/
def readIndNext (t : Tx) : Word × Tx :=
  let (a, t) := indNextAddress t
  t.memRead a

/-- WRITE of next word indirect (R181). -/
def writeIndNext (v : Word) (t : Tx) : Tx :=
  let (a, t) := indNextAddress t
  t.memWrite a v

/-- IND_NEXT, code 0x1E (R180, R181). -/
def execIndNext (s : State) : Host.Outcome State Fault Refusal :=
  transact readIndNext writeIndNext s

/-- READ of next word immediate (R183). -/
def readNext (t : Tx) : Word × Tx :=
  nextWord t

/-- WRITE of next word immediate: "the next word is not written" (R184). -/
def writeNext (_v : Word) (t : Tx) : Tx :=
  t

/-- NEXT, code 0x1F (R183, R184). -/
def execNext (s : State) : Host.Outcome State Fault Refusal :=
  transact readNext writeNext s

/-- READ of a literal: `zext_16(code[4:0])`, "no memory or register access" (R186). -/
def readLiteral (lit : BitVec 5) (t : Tx) : Word × Tx :=
  (zext16 lit, t)

/-- WRITE of a literal: a no-op (R187). -/
def writeLiteral (_lit : BitVec 5) (_v : Word) (t : Tx) : Tx :=
  t

/-- LITERAL, codes 0x20..0x3F (R186, R187). -/
def execLiteral (lit : BitVec 5) (s : State) : Host.Outcome State Fault Refusal :=
  transact (readLiteral lit) (writeLiteral lit) s

end Sys2Proof.Machine
end

