-- ==== Sys2Proof/Machine/RegisterModes.lean ====
section
/-! DEFINITION. The register modes, codes 0x00..0x17 (41_register_modes.md). -/

namespace Sys2Proof.Machine

/-- READ of a direct register (R120). -/
def readReg (r : Fin 8) (t : Tx) : Word × Tx :=
  t.register r

/-- WRITE of a direct register (R121). -/
def writeReg (r : Fin 8) (v : Word) (t : Tx) : Tx :=
  t.setRegister r v

/-- REG, codes 0x00..0x07 (R120, R121). -/
def execReg (r : Fin 8) (s : State) : Host.Outcome State Fault Refusal :=
  transact (readReg r) (writeReg r) s

/-- READ of an indirect register (R123). -/
def readIndReg (r : Fin 8) (t : Tx) : Word × Tx :=
  let (a, t) := indRegAddress r t
  t.memRead a

/-- WRITE of an indirect register (R124). -/
def writeIndReg (r : Fin 8) (v : Word) (t : Tx) : Tx :=
  let (a, t) := indRegAddress r t
  t.memWrite a v

/-- IND_REG, codes 0x08..0x0F (R123, R124). -/
def execIndReg (r : Fin 8) (s : State) : Host.Outcome State Fault Refusal :=
  transact (readIndReg r) (writeIndReg r) s

/-- READ of an indirect register plus next word (R125). -/
def readIndRegNext (r : Fin 8) (t : Tx) : Word × Tx :=
  let (a, t) := indRegNextAddress r t
  t.memRead a

/-- WRITE of an indirect register plus next word (R126). -/
def writeIndRegNext (r : Fin 8) (v : Word) (t : Tx) : Tx :=
  let (a, t) := indRegNextAddress r t
  t.memWrite a v

/-- IND_REG_NEXT, codes 0x10..0x17 (R125, R126). -/
def execIndRegNext (r : Fin 8) (s : State) : Host.Outcome State Fault Refusal :=
  transact (readIndRegNext r) (writeIndRegNext r) s

end Sys2Proof.Machine
end

