-- ==== Sys2Proof/Machine/Flags.lean ====
section
/-! DEFINITION. The flags: there is no flag but `O` (R29), a full Word that the block reads and writes whole and
never changes as a side effect (R28, R166, R167). No mode computes a flag, so these two accessors are all. -/

namespace Sys2Proof.Machine

/-- `getOverflow` (R23). -/
def Tx.getOverflow (t : Tx) : Word × Tx :=
  (t.cpu.o, t.note .getOverflow)

/-- `setOverflow` (R23): the whole Word, "not filtered to a carry bit" (R167). -/
def Tx.setOverflow (t : Tx) (v : Word) : Tx :=
  { cpu := { t.cpu with o := v }, log := t.log ++ [.setOverflow v] }

end Sys2Proof.Machine
end

