-- ==== Sys2Proof/Machine/SpecialModes.lean ====
section
/-! DEFINITION. The special-register modes, codes 0x1B..0x1D (43_special_register_modes.md). -/

namespace Sys2Proof.Machine

/-- READ of SP (R160). -/
def readSp (t : Tx) : Word × Tx :=
  t.getStackPointer

/-- WRITE of SP (R161). -/
def writeSp (v : Word) (t : Tx) : Tx :=
  t.setStackPointer v

/-- SP, code 0x1B (R160, R161). -/
def execSp (s : State) : Host.Outcome State Fault Refusal :=
  transact readSp writeSp s

/-- READ of PC: PC as the caller left it (R163, R225). -/
def readPc (t : Tx) : Word × Tx :=
  t.getProgramCounter

/-- WRITE of PC (R164, R165). -/
def writePc (v : Word) (t : Tx) : Tx :=
  t.setProgramCounter v

/-- PC, code 0x1C (R163, R164). -/
def execPc (s : State) : Host.Outcome State Fault Refusal :=
  transact readPc writePc s

/-- READ of O (R166). -/
def readO (t : Tx) : Word × Tx :=
  t.getOverflow

/-- WRITE of O (R167). -/
def writeO (v : Word) (t : Tx) : Tx :=
  t.setOverflow v

/-- O, code 0x1D (R166, R167). -/
def execO (s : State) : Host.Outcome State Fault Refusal :=
  transact readO writeO s

end Sys2Proof.Machine
end

