-- ==== Sys2Proof/Machine/StackModes.lean ====
section
/-! DEFINITION. The stack modes, codes 0x18..0x1A (42_stack_modes.md). READ of POP and PUSH moves SP inside the same
transaction and in the order R142 makes normative; WRITE of all three is a no-op (C2, C4). -/

namespace Sys2Proof.Machine

/-- READ of POP: the address is the old SP (R140). -/
def readPop (t : Tx) : Word × Tx :=
  let (a, t) := t.spPostInc
  t.memRead a

/-- WRITE of POP: "nothing is read or written; SP does not move" (R141). -/
def writePop (_v : Word) (t : Tx) : Tx :=
  t

/-- POP, code 0x18 (R140, R141). -/
def execPop (s : State) : Host.Outcome State Fault Refusal :=
  transact readPop writePop s

/-- READ of PEEK (R143). -/
def readPeek (t : Tx) : Word × Tx :=
  let (a, t) := t.getStackPointer
  t.memRead a

/-- WRITE of PEEK: a no-op (R144). -/
def writePeek (_v : Word) (t : Tx) : Tx :=
  t

/-- PEEK, code 0x19 (R143, R144). -/
def execPeek (s : State) : Host.Outcome State Fault Refusal :=
  transact readPeek writePeek s

/-- READ of PUSH: the address is the new SP (R146). -/
def readPush (t : Tx) : Word × Tx :=
  let (a, t) := t.spPreDec
  t.memRead a

/-- WRITE of PUSH: "SP does not move and nothing is stored" (R147). -/
def writePush (_v : Word) (t : Tx) : Tx :=
  t

/-- PUSH, code 0x1A (R146, R147). -/
def execPush (s : State) : Host.Outcome State Fault Refusal :=
  transact readPush writePush s

end Sys2Proof.Machine
end

