-- ==== Sys2Proof/Machine/Dispatch.lean ====
section
/-! DEFINITION. One arm per addressing mode, no default arm (R110). -/

namespace Sys2Proof.Machine

def exec (i : Instr) (s : State) : Host.Outcome State Fault Refusal :=
  match i with
  | .reg r => Sys2Proof.Machine.execReg r s
  | .indReg r => Sys2Proof.Machine.execIndReg r s
  | .indRegNext r => Sys2Proof.Machine.execIndRegNext r s
  | .pop => Sys2Proof.Machine.execPop s
  | .peek => Sys2Proof.Machine.execPeek s
  | .push => Sys2Proof.Machine.execPush s
  | .sp => Sys2Proof.Machine.execSp s
  | .pc => Sys2Proof.Machine.execPc s
  | .o => Sys2Proof.Machine.execO s
  | .indNext => Sys2Proof.Machine.execIndNext s
  | .next => Sys2Proof.Machine.execNext s
  | .literal lit => Sys2Proof.Machine.execLiteral lit s

end Sys2Proof.Machine
end

