-- ==== Sys2Proof/Machine/Issue.lean ====
section
/-! DEFINITION. From the caller's schedule to a transaction: where the next operand code is taken from and the
boundary that refuses what the 6-bit port cannot carry. -/

namespace Sys2Proof.Machine

/-- The next request of the caller, and the state with the rest still to come (D4, R112). -/
def takeRequest (s : State) : Option (Request × State) :=
  match s.schedule with
  | [] => none
  | q :: rest => some (q, { s with schedule := rest })

/-- One step with the request `q` at the boundary. A code outside 0..63 is refused by name (R81, R202); otherwise
the ports take the request, and a transaction runs if `start` asks for one (R35). -/
def issue (q : Request) (s : State) : Host.Outcome State Fault Refusal :=
  match decode q.code with
  | .error (.codeOutOfRange n) => .refused (.operandCodeOutOfRange n)
  | .ok i => if q.start then exec i (s.present q) else .next (s.present q).idle

/-- The caller's schedule with `code` as the code of its first request, asked for now. The request's operation and
value stay; where the caller has no request yet, it is a READ (notes/assumptions/13.md). -/
def withFirstCode (schedule : List Request) (code : Nat) : List Request :=
  match schedule with
  | [] => [{ start := true, code := code, op := .read, wdata := 0 }]
  | q :: rest => { q with start := true, code := code } :: rest

end Sys2Proof.Machine
end

