-- ==== Sys2Proof/Machine/Step.lean ====
section
/-! DEFINITION. The step (R110): the caller's next request, or an idle step where there is none. -/

namespace Sys2Proof.Machine

/-- One step of the machine. It is a function of the state alone (R111). -/
def step (s : State) : Host.Outcome State Fault Refusal :=
  match takeRequest s with
  | none => .next s.deassert.idle
  | some (q, s') => issue q s'

/-- `s` with the operand code `w` as the code of the request the next step takes (notes/assumptions/13.md). -/
def State.withFetchWord (s : State) (_nbits w : Nat) : State :=
  { s with schedule := withFirstCode s.schedule w }

end Sys2Proof.Machine
end

