-- ==== Sys2Proof/Machine/Transactions.lean ====
section
/-! DEFINITION. The block as the four pure functions of R38, with no ports and no schedule (40_transactions.md), and
the two outputs that need no transaction (R36). -/

namespace Sys2Proof.Machine

/-- The mode's READ rule (R110). -/
def readMode (i : Instr) : Tx → Word × Tx :=
  match i with
  | .reg r => readReg r
  | .indReg r => readIndReg r
  | .indRegNext r => readIndRegNext r
  | .pop => readPop
  | .peek => readPeek
  | .push => readPush
  | .sp => readSp
  | .pc => readPc
  | .o => readO
  | .indNext => readIndNext
  | .next => readNext
  | .literal lit => readLiteral lit

/-- The mode's WRITE rule (R110). -/
def writeMode (i : Instr) : Word → Tx → Tx :=
  match i with
  | .reg r => writeReg r
  | .indReg r => writeIndReg r
  | .indRegNext r => writeIndRegNext r
  | .pop => writePop
  | .peek => writePeek
  | .push => writePush
  | .sp => writeSp
  | .pc => writePc
  | .o => writeO
  | .indNext => writeIndNext
  | .next => writeNext
  | .literal lit => writeLiteral lit

/-- `READ : Code6 -> S -> (Word, S)` (R38). -/
def READ (code : BitVec 6) (c : Cpu) : Word × Cpu :=
  let (v, t) := readMode (decodeCode code) ⟨c, []⟩
  (v, t.cpu)

/-- `WRITE : Code6 -> Word -> S -> S` (R38). -/
def WRITE (code : BitVec 6) (v : Word) (c : Cpu) : Cpu :=
  (writeMode (decodeCode code) v ⟨c, []⟩).cpu

/-- `SIZE : Code6 -> 0 or 1` (R38, R105). -/
def SIZE (code : BitVec 6) : BitVec 1 :=
  (decodeCode code).size

/-- `TYPE : Code6 -> Tag` (R38, R106). -/
def TYPE (code : BitVec 6) : Tag :=
  (decodeCode code).tag

/-- The `size` output, combinational in the `code` port (R36). -/
def State.sizeOut (s : State) : BitVec 1 :=
  SIZE s.inp.code

/-- The `tag` output, combinational in the `code` port (R36, R78). -/
def State.tagOut (s : State) : BitVec 4 :=
  (TYPE s.inp.code).encoding

end Sys2Proof.Machine
end

