-- ==== Sys2Proof/Safety.lean ====
section
/-! DEFINITION. What a safe run is, in the terms the statements use. -/

namespace Sys2Proof.Machine

/-- The invariant: memory is in its canonical form, so that equal memories are equal data. -/
def State.Inv (s : State) : Prop :=
  s.cpu.mem.wf

/-- Every request still to come has a code the port can carry: the caller keeps the precondition of R81. The block
asks nothing else of the caller (R112). -/
def State.Admitted (s : State) : Prop :=
  ∀ q ∈ s.schedule, q.wellFormed = true

end Sys2Proof.Machine
end

