-- ==== Sys2Proof/Certificates/Slice0/Obligations.lean ====
section
/-! DEFINITION. The statements for the provers. Each docstring names the rule of spec/ it formalises; OBLIGATIONS.json
quotes it. No statement reads a register value of `State.reset`, a tag's value, or a free value. -/

open Sys2Proof Sys2Proof.Machine

/-! ### Words the statements share -/

namespace Sys2Proof.Statement

/-- A READ of `code` asked for; `w` is on `wdata`, which a READ does not use (R35). -/
def asksRead (code : Nat) (w : Word) : Request :=
  { start := true, code := code, op := .read, wdata := w }

/-- A WRITE of `v` to `code` asked for. -/
def asksWrite (code : Nat) (v : Word) : Request :=
  { start := true, code := code, op := .write, wdata := v }

/-- A transaction leaves the input ports and the requests still to come as they are. -/
def PortsKept (s t : State) : Prop :=
  t.inp = s.inp ∧ t.schedule = s.schedule

/-- Every general register, SP, PC and O as before. -/
def RegistersKept (c d : Cpu) : Prop :=
  (∀ i : Fin 8, d.x[i] = c.x[i]) ∧ d.sp = c.sp ∧ d.pc = c.pc ∧ d.o = c.o

/-- Every Word of memory reads as before. -/
def MemoryKept (c d : Cpu) : Prop :=
  ∀ n : Nat, d.mem.read n = c.mem.read n

/-- The one change is that the cell at `a` holds `v`: every register as before, and every other cell reads as
before. -/
def StoresOnly (c d : Cpu) (a v : Word) : Prop :=
  RegistersKept c d ∧
  ∀ n : Nat, d.mem.read n = if n % Config.memWords = a.toNat then v else c.mem.read n

/-- The Word after the opcode word, `M[PC +16 1]` (R74). -/
def nextWordOf (c : Cpu) : Word :=
  c.mem.read (c.pc + 1).toNat

/-- The cell that a mode with a memory destination addresses, from the state at the transaction; `none` for a mode
that has no such destination (R124, R126, R181). -/
def destination (i : Instr) (c : Cpu) : Option Word :=
  match i with
  | .indReg r => some c.x[r]
  | .indRegNext r => some (nextWordOf c + c.x[r])
  | .indNext => some (nextWordOf c)
  | .reg _ | .pop | .peek | .push | .sp | .pc | .o | .next | .literal _ => none

/-- A READ of the mode `i` next, on the same CPU state, delivers `v`. -/
def NextReadDelivers (i : Instr) (t : State) (v : Word) : Prop :=
  ∃ u, exec i { t with inp := { t.inp with op := .read } } = .next u ∧ u.rdata = v

/-- What two CPU states have in common for an accessor call to answer the same. -/
def AgreesOn (a : Access) (c d : Cpu) : Prop :=
  match a with
  | .register i => c.x[i] = d.x[i]
  | .getStackPointer | .getStackPointerAndIncrement | .getStackPointerAndDecrement => c.sp = d.sp
  | .getProgramCounter | .getNextProgramCounter => c.pc = d.pc
  | .getOverflow => c.o = d.o
  | .readFrom k => c.mem.read k.toNat = d.mem.read k.toNat
  | .setRegister _ _ | .setStackPointer _ | .setProgramCounter _ | .setOverflow _ | .writeAt _ _ => True

/-- The memory accesses among the accessor calls, in order. -/
def memoryAccesses (log : List Access) : List Op :=
  log.filterMap fun a =>
    match a with
    | .readFrom _ => some .read
    | .writeAt _ _ => some .write
    | _ => none

/-- The table of R54, by operand code. -/
def tableAccesses (code : Nat) (op : Op) : List Op :=
  if code ≤ 0x07 ∨ (0x1B ≤ code ∧ code ≤ 0x1D) ∨ 0x20 ≤ code then []
  else if code ≤ 0x0F then [op]
  else if code ≤ 0x17 ∨ code = 0x1E then [.read, op]
  else match op with
    | .read => [.read]
    | .write => []

end Sys2Proof.Statement

open Sys2Proof.Statement

/-! ### Encoding -/

/-- 30_encoding.md §5 (R80) inside 0..63: each number is some mode's code, it is the code of exactly the mode it
decodes to, with every operand, and both transactions of every mode complete from every state. That NO OTHER number
decodes, and none is truncated, is the boundary's refusal: the spec's decision D7 (R81) and the model's choice log 7. -/
def Obligations.EveryCodeHasExactlyOneMode : Prop :=
  (∀ n : Nat, n < 64 ↔ ∃ i, decode n = .ok i) ∧
  (∀ (n : Nat) (i : Instr), decode n = .ok i ↔ n = (encode i).toNat) ∧
  ∀ (i : Instr) (s : State), ∃ t, exec i s = .next t

/-- R71, R72, R73 on codes written out bit by bit, one or more of each format. A sanity statement. -/
def Obligations.SpelledOutCodesDecode : Prop :=
  decode 0b000011 = .ok (.reg 3) ∧ decode 0b001010 = .ok (.indReg 2) ∧
  decode 0b010111 = .ok (.indRegNext 7) ∧ decode 0b011000 = .ok .pop ∧ decode 0b011001 = .ok .peek ∧
  decode 0b011010 = .ok .push ∧ decode 0b011011 = .ok .sp ∧ decode 0b011100 = .ok .pc ∧
  decode 0b011101 = .ok .o ∧ decode 0b011110 = .ok .indNext ∧ decode 0b011111 = .ok .next ∧
  decode 0b101010 = .ok (.literal 0b01010#5) ∧ decode 0b111111 = .ok (.literal 0b11111#5)

/-- R105, R76 at the `size` output: after any step that presents a code, with or without `start`, it is 1 exactly
for the codes that take a next word. -/
def Obligations.SizeOutputMarksTheNextWordCodes : Prop :=
  ∀ (s t : State) (q : Request) (rest : List Request),
    s.schedule = q :: rest → step s = .next t →
    (t.sizeOut = 1 ↔ (0x10 ≤ q.code ∧ q.code ≤ 0x17) ∨ q.code = 0x1E ∨ q.code = 0x1F)

/-- R106, R78 at the `tag` output, without a tag's value (D3): it tells the rows of the table apart and nothing
else. -/
def Obligations.TagOutputTellsTheRowsApart : Prop :=
  ∀ (s s' t t' : State) (q q' : Request) (rest rest' : List Request),
    s.schedule = q :: rest → s'.schedule = q' :: rest' → step s = .next t → step s' = .next t' →
    (t.tagOut = t'.tagOut ↔
      ∃ row ∈ opcodeRows, row.covers (BitVec.ofNat 6 q.code) = true ∧
        row.covers (BitVec.ofNat 6 q'.code) = true)

/-! ### One READ, one WRITE of every mode: each completes from every state -/

/-- R120. -/
def Obligations.ReadOfARegisterDeliversIt : Prop :=
  ∀ (r : Fin 8) (s : State), s.inp.op = .read →
    decode r.val = .ok (.reg r) ∧
    ∃ t, exec (.reg r) s = .next t ∧ t.rdata = s.cpu.x[r] ∧ t.cpu = s.cpu ∧ PortsKept s t

/-- R121: no other register, no memory; a READ of the code then delivers the Word. -/
def Obligations.WriteOfARegisterSetsItAlone : Prop :=
  ∀ (r : Fin 8) (s : State), s.inp.op = .write →
    decode r.val = .ok (.reg r) ∧
    ∃ t, exec (.reg r) s = .next t ∧
      (∀ j : Fin 8, t.cpu.x[j] = if j = r then s.inp.wdata else s.cpu.x[j]) ∧
      t.cpu.sp = s.cpu.sp ∧ t.cpu.pc = s.cpu.pc ∧ t.cpu.o = s.cpu.o ∧ MemoryKept s.cpu t.cpu ∧
      (s.cpu.x[r] = s.inp.wdata → t.cpu = s.cpu) ∧ NextReadDelivers (.reg r) t s.inp.wdata ∧ PortsKept s t

/-- R123. -/
def Obligations.ReadThroughARegisterLoadsItsCell : Prop :=
  ∀ (r : Fin 8) (s : State), s.inp.op = .read →
    decode (0x08 + r.val) = .ok (.indReg r) ∧
    ∃ t, exec (.indReg r) s = .next t ∧ t.rdata = s.cpu.mem.read s.cpu.x[r].toNat ∧ t.cpu = s.cpu ∧
      PortsKept s t

/-- R124; a READ of the code then delivers the Word. -/
def Obligations.WriteThroughARegisterStoresAtItsCell : Prop :=
  ∀ (r : Fin 8) (s : State), s.inp.op = .write →
    decode (0x08 + r.val) = .ok (.indReg r) ∧
    ∃ t, exec (.indReg r) s = .next t ∧ StoresOnly s.cpu t.cpu s.cpu.x[r] s.inp.wdata ∧
      NextReadDelivers (.indReg r) t s.inp.wdata ∧ PortsKept s t

/-- R125: PC is not advanced, although SIZE is 1. -/
def Obligations.ReadIndexedByNextWordLoadsTheSumCell : Prop :=
  ∀ (r : Fin 8) (s : State), s.inp.op = .read →
    decode (0x10 + r.val) = .ok (.indRegNext r) ∧
    ∃ t, exec (.indRegNext r) s = .next t ∧
      t.rdata = s.cpu.mem.read (s.cpu.mem.read (s.cpu.pc + 1).toNat + s.cpu.x[r]).toNat ∧ t.cpu = s.cpu ∧
      PortsKept s t

/-- R126. -/
def Obligations.WriteIndexedByNextWordStoresAtTheSumCell : Prop :=
  ∀ (r : Fin 8) (s : State), s.inp.op = .write →
    decode (0x10 + r.val) = .ok (.indRegNext r) ∧
    ∃ t, exec (.indRegNext r) s = .next t ∧
      StoresOnly s.cpu t.cpu (s.cpu.mem.read (s.cpu.pc + 1).toNat + s.cpu.x[r]) s.inp.wdata ∧ PortsKept s t

/-- R140, R142: the address is the SP before the increment. -/
def Obligations.ReadOfPopLoadsThenIncrements : Prop :=
  ∀ s : State, s.inp.op = .read →
    decode 0x18 = .ok .pop ∧
    ∃ t, exec .pop s = .next t ∧ t.rdata = s.cpu.mem.read s.cpu.sp.toNat ∧
      t.cpu = { s.cpu with sp := s.cpu.sp + 1 } ∧ PortsKept s t

/-- R141. -/
def Obligations.WriteOfPopDoesNothing : Prop :=
  ∀ s : State, s.inp.op = .write →
    decode 0x18 = .ok .pop ∧ ∃ t, exec .pop s = .next t ∧ t.cpu = s.cpu ∧ PortsKept s t

/-- R143. -/
def Obligations.ReadOfPeekLoadsTheTop : Prop :=
  ∀ s : State, s.inp.op = .read →
    decode 0x19 = .ok .peek ∧
    ∃ t, exec .peek s = .next t ∧ t.rdata = s.cpu.mem.read s.cpu.sp.toNat ∧ t.cpu = s.cpu ∧ PortsKept s t

/-- R144. -/
def Obligations.WriteOfPeekDoesNothing : Prop :=
  ∀ s : State, s.inp.op = .write →
    decode 0x19 = .ok .peek ∧ ∃ t, exec .peek s = .next t ∧ t.cpu = s.cpu ∧ PortsKept s t

/-- R146, R142: the address is the SP after the decrement. -/
def Obligations.ReadOfPushDecrementsThenLoads : Prop :=
  ∀ s : State, s.inp.op = .read →
    decode 0x1A = .ok .push ∧
    ∃ t, exec .push s = .next t ∧ t.rdata = s.cpu.mem.read (s.cpu.sp - 1).toNat ∧
      t.cpu = { s.cpu with sp := s.cpu.sp - 1 } ∧ PortsKept s t

/-- R147. -/
def Obligations.WriteOfPushDoesNothing : Prop :=
  ∀ s : State, s.inp.op = .write →
    decode 0x1A = .ok .push ∧ ∃ t, exec .push s = .next t ∧ t.cpu = s.cpu ∧ PortsKept s t

/-- R160. -/
def Obligations.ReadOfSpDeliversIt : Prop :=
  ∀ s : State, s.inp.op = .read →
    decode 0x1B = .ok .sp ∧ ∃ t, exec .sp s = .next t ∧ t.rdata = s.cpu.sp ∧ t.cpu = s.cpu ∧ PortsKept s t

/-- R161; the stack modes then use the new SP. -/
def Obligations.WriteOfSpSetsItAlone : Prop :=
  ∀ s : State, s.inp.op = .write →
    decode 0x1B = .ok .sp ∧
    ∃ t, exec .sp s = .next t ∧ t.cpu = { s.cpu with sp := s.inp.wdata } ∧
      NextReadDelivers .peek t (s.cpu.mem.read s.inp.wdata.toNat) ∧ PortsKept s t

/-- R163: PC as it stands at the transaction. -/
def Obligations.ReadOfPcDeliversIt : Prop :=
  ∀ s : State, s.inp.op = .read →
    decode 0x1C = .ok .pc ∧ ∃ t, exec .pc s = .next t ∧ t.rdata = s.cpu.pc ∧ t.cpu = s.cpu ∧ PortsKept s t

/-- R164; the next word is then the one after the new PC. -/
def Obligations.WriteOfPcSetsItAlone : Prop :=
  ∀ s : State, s.inp.op = .write →
    decode 0x1C = .ok .pc ∧
    ∃ t, exec .pc s = .next t ∧ t.cpu = { s.cpu with pc := s.inp.wdata } ∧
      NextReadDelivers .next t (s.cpu.mem.read (s.inp.wdata + 1).toNat) ∧ PortsKept s t

/-- R166, with its corner case: no mode's transaction changes O as a side effect. -/
def Obligations.ReadOfOverflowDeliversTheWholeWord : Prop :=
  (∀ s : State, s.inp.op = .read →
    decode 0x1D = .ok .o ∧ ∃ t, exec .o s = .next t ∧ t.rdata = s.cpu.o ∧ t.cpu = s.cpu ∧ PortsKept s t) ∧
  ∀ (i : Instr) (s t : State), exec i s = .next t → t.cpu.o ≠ s.cpu.o → i = .o ∧ s.inp.op = .write

/-- R167; a READ of O then delivers the Word. -/
def Obligations.WriteOfOverflowSetsTheWholeWordAlone : Prop :=
  ∀ s : State, s.inp.op = .write →
    decode 0x1D = .ok .o ∧
    ∃ t, exec .o s = .next t ∧ t.cpu = { s.cpu with o := s.inp.wdata } ∧
      NextReadDelivers .o t s.inp.wdata ∧ PortsKept s t

/-- R180. -/
def Obligations.ReadNextWordIndirectLoadsItsCell : Prop :=
  ∀ s : State, s.inp.op = .read →
    decode 0x1E = .ok .indNext ∧
    ∃ t, exec .indNext s = .next t ∧
      t.rdata = s.cpu.mem.read (s.cpu.mem.read (s.cpu.pc + 1).toNat).toNat ∧ t.cpu = s.cpu ∧ PortsKept s t

/-- R181. -/
def Obligations.WriteNextWordIndirectStoresAtItsCell : Prop :=
  ∀ s : State, s.inp.op = .write →
    decode 0x1E = .ok .indNext ∧
    ∃ t, exec .indNext s = .next t ∧
      StoresOnly s.cpu t.cpu (s.cpu.mem.read (s.cpu.pc + 1).toNat) s.inp.wdata ∧ PortsKept s t

/-- R183. -/
def Obligations.ReadNextWordDeliversIt : Prop :=
  ∀ s : State, s.inp.op = .read →
    decode 0x1F = .ok .next ∧
    ∃ t, exec .next s = .next t ∧ t.rdata = s.cpu.mem.read (s.cpu.pc + 1).toNat ∧ t.cpu = s.cpu ∧ PortsKept s t

/-- R184. -/
def Obligations.WriteNextWordDoesNothing : Prop :=
  ∀ s : State, s.inp.op = .write →
    decode 0x1F = .ok .next ∧ ∃ t, exec .next s = .next t ∧ t.cpu = s.cpu ∧ PortsKept s t

/-- R186: the value is code - 0x20, in every state, and no register or memory is reached. -/
def Obligations.ReadOfALiteralDeliversCodeMinus0x20 : Prop :=
  ∀ (lit : BitVec 5) (s : State), s.inp.op = .read →
    decode (0x20 + lit.toNat) = .ok (.literal lit) ∧
    ∃ t, exec (.literal lit) s = .next t ∧ t.rdata.toNat = lit.toNat ∧ t.cpu = s.cpu ∧ t.activity = [] ∧
      PortsKept s t

/-- R187: nothing changes, so a later READ still delivers code - 0x20. -/
def Obligations.WriteOfALiteralDoesNothing : Prop :=
  ∀ (lit : BitVec 5) (s : State), s.inp.op = .write →
    decode (0x20 + lit.toNat) = .ok (.literal lit) ∧
    ∃ t, exec (.literal lit) s = .next t ∧ t.cpu = s.cpu ∧ t.activity = [] ∧
      NextReadDelivers (.literal lit) t (BitVec.ofNat 16 lit.toNat) ∧ PortsKept s t

/-! ### The step -/

/-- The step takes the caller's next request, puts it on the input ports and runs the decoded mode (R35, R110). -/
def Obligations.StepRunsTheDecodedMode : Prop :=
  ∀ (s : State) (q : Request) (rest : List Request) (i : Instr),
    s.schedule = q :: rest → q.start = true → decode q.code = .ok i →
    step s = exec i { s with
      schedule := rest
      inp := { code := BitVec.ofNat 6 q.code, op := q.op, wdata := q.wdata, start := true } }

/-- A step without a transaction goes on and changes nothing of the CPU state. That such a step exists is the
model's choice (log 2); what it leaves alone is R109. -/
def Obligations.StepWithoutATransactionKeepsTheCpu : Prop :=
  ∀ s : State,
    (s.schedule = [] ∨ ∃ q rest, s.schedule = q :: rest ∧ q.start = false ∧ q.code < 64) →
    ∃ t, step s = .next t ∧ t.cpu = s.cpu ∧ t.activity = [] ∧ t.inp.start = false ∧
      t.schedule = s.schedule.tail

/-- A presented code outside 0..63 is refused by name, whatever else is asked (R81, R202; the spec marks it as its
own decision D7; log 7). -/
def Obligations.CodeOutOfRangeIsRefusedByName : Prop :=
  ∀ (s : State) (q : Request) (rest : List Request), s.schedule = q :: rest →
    (64 ≤ q.code ↔ step s = .refused (.operandCodeOutOfRange q.code))

/-- The step on a request in range is the pure function READ or WRITE of R38 on the CPU state (decision D1), and it
completes. -/
def Obligations.StepIsTheReadOrWriteFunction : Prop :=
  ∀ (s : State) (q : Request) (rest : List Request),
    s.schedule = q :: rest → q.start = true → q.code < 64 →
    ∃ t, step s = .next t ∧ t.schedule = rest ∧
      (q.op = .read →
        t.rdata = (READ (BitVec.ofNat 6 q.code) s.cpu).1 ∧ t.cpu = (READ (BitVec.ofNat 6 q.code) s.cpu).2) ∧
      (q.op = .write → t.cpu = WRITE (BitVec.ofNat 6 q.code) q.wdata s.cpu)

/-! ### What may change what, over every step -/

/-- 10_state.md §2.2 (R26): SP moves by READ of POP, READ of PUSH and WRITE of SP only, and otherwise than by the
last by exactly 1. -/
def Obligations.SpMovesOnlyByPopPushAndItsWrite : Prop :=
  ∀ s t : State, step s = .next t → t.cpu.sp ≠ s.cpu.sp →
    ∃ q rest, s.schedule = q :: rest ∧ q.start = true ∧
      ((q.op = .read ∧ q.code = 0x18 ∧ t.cpu.sp = s.cpu.sp + 1) ∨
       (q.op = .read ∧ q.code = 0x1A ∧ t.cpu.sp = s.cpu.sp - 1) ∨
       (q.op = .write ∧ q.code = 0x1B ∧ t.cpu.sp = q.wdata))

/-- R165: no offset, no link register. -/
def Obligations.PcChangesOnlyByWriteOfCode1C : Prop :=
  ∀ s t : State, step s = .next t → t.cpu.pc ≠ s.cpu.pc →
    ∃ q rest, s.schedule = q :: rest ∧ q.start = true ∧ q.op = .write ∧ q.code = 0x1C ∧
      t.cpu = { s.cpu with pc := q.wdata }

/-- 10_state.md §2.4 (R28): no transaction writes O as a side effect. -/
def Obligations.OverflowChangesOnlyByWriteOfCode1D : Prop :=
  ∀ s t : State, step s = .next t → t.cpu.o ≠ s.cpu.o →
    ∃ q rest, s.schedule = q :: rest ∧ q.start = true ∧ q.op = .write ∧ q.code = 0x1D ∧
      t.cpu = { s.cpu with o := q.wdata }

/-- 40_transactions.md §2 (R109, derived there): a general register changes only by the WRITE of its own code. -/
def Obligations.RegisterChangesOnlyByWriteOfItsCode : Prop :=
  ∀ (s t : State) (i : Fin 8), step s = .next t → t.cpu.x[i] ≠ s.cpu.x[i] →
    ∃ q rest, s.schedule = q :: rest ∧ q.start = true ∧ q.op = .write ∧ q.code = i.val ∧
      t.cpu.x[i] = q.wdata

/-- 20_memory.md §1, §2 (R51, R54, derived there): a cell changes only by a WRITE whose destination it is, and then
holds the WRITE's value. -/
def Obligations.CellChangesOnlyAsAWritesDestination : Prop :=
  ∀ (s t : State) (n : Nat), step s = .next t → t.cpu.mem.read n ≠ s.cpu.mem.read n →
    ∃ q rest i, s.schedule = q :: rest ∧ q.start = true ∧ q.op = .write ∧ decode q.code = .ok i ∧
      (∃ a, destination i s.cpu = some a ∧ n % Config.memWords = a.toNat) ∧ t.cpu.mem.read n = q.wdata

/-- 40_transactions.md §2 (R108, derived there): READ changes the CPU state for codes 0x18 and 0x1A, in some state,
and for no other code; and no READ changes a general register, PC, O or memory. -/
def Obligations.ReadHasSideEffectsForPopAndPushAlone : Prop :=
  (∀ (n : Nat) (i : Instr), decode n = .ok i →
    ((∀ s t : State, s.inp.op = .read → exec i s = .next t → t.cpu = s.cpu) ↔ n ≠ 0x18 ∧ n ≠ 0x1A)) ∧
  ∀ (i : Instr) (s t : State), s.inp.op = .read → exec i s = .next t →
    t.cpu = { s.cpu with sp := t.cpu.sp }

/-- 40_transactions.md §2 (R107, derived there): WRITE is a no-op for POP, PEEK, PUSH, the next word and the
literals, and changes the CPU state, in some state, for each of the 28 other codes. -/
def Obligations.WriteIsANoOpForExactlyTheReadOnlyCodes : Prop :=
  ∀ (n : Nat) (i : Instr), decode n = .ok i →
    ((∀ s t : State, s.inp.op = .write → exec i s = .next t → t.cpu = s.cpu) ↔
      (0x18 ≤ n ∧ n ≤ 0x1A) ∨ 0x1F ≤ n)

/-- R111: the same CPU state, code, operation and value give the same result, whatever else the model's state
holds. -/
def Obligations.TransactionsAreDeterminedByCpuAndRequest : Prop :=
  ∀ (s s' t : State) (q : Request) (rest rest' : List Request),
    s.schedule = q :: rest → s'.schedule = q :: rest' → s.cpu = s'.cpu → step s = .next t →
    ∃ t', step s' = .next t' ∧ t.cpu = t'.cpu ∧ t.activity = t'.activity ∧
      (q.start = true → q.op = .read → t.rdata = t'.rdata)

/-- 10_state.md §2.7 (R34, derived there): a transaction reaches no more than the accessor calls it makes. Two CPU
states that agree on what those calls read give the same calls, the same values stored and the same READ value. -/
def Obligations.TransactionsDependOnlyOnWhatTheyReach : Prop :=
  ∀ (i : Instr) (s s' t t' : State),
    s'.inp.op = s.inp.op → s'.inp.wdata = s.inp.wdata → exec i s = .next t → exec i s' = .next t' →
    (∀ a ∈ t.activity, AgreesOn a s.cpu s'.cpu) →
    t'.activity = t.activity ∧ (s.inp.op = .read → t'.rdata = t.rdata)

/-- 20_memory.md §2 (R54, derived there; recording order R57, decision D11): how many memory accesses a transaction
makes, and a read before a write. -/
def Obligations.MemoryAccessesFollowTheTable : Prop :=
  ∀ (n : Nat) (i : Instr) (s : State), decode n = .ok i →
    ∃ t, exec i s = .next t ∧ memoryAccesses t.activity = tableAccesses n s.inp.op

/-! ### Memory -/

/-- R50. -/
def Obligations.MemoryIsAWrappingArray : Prop :=
  ∀ (m : Memory) (a b : Nat) (v : Word),
    m.read a = m.read (a % 65536) ∧
    (m.write a v).read b = if b % 65536 = a % 65536 then v else m.read b

/-- The model's own canonical form (log 6): two canonical memories that read alike everywhere are the same data. -/
def Obligations.CanonicalMemoriesThatReadAlikeAreEqual : Prop :=
  ∀ m m' : Memory, m.wf → m'.wf → (∀ a, m.read a = m'.read a) → m = m'

/-- The model's own canonical form (log 6) is kept by every step, from every state that has it. -/
def Obligations.StepKeepsMemoryCanonical : Prop :=
  ∀ s t : State, s.Inv → step s = .next t → t.Inv

/-- The model's own canonical form (log 6) holds at reset. -/
def Obligations.ResetMemoryIsCanonical : Prop :=
  State.reset.Inv

/-! ### Sequences of transactions -/

/-- The block has no failure path (R200) and admits every sequence of READs and WRITEs (R112, decision D14): from
every state whose requests have codes in 0..63, any number of steps complete, and each takes one request while there
is one. That a step goes on too where a request has start low, or past the end of the schedule, is the model's idle
step, its choice (log 2). -/
def Obligations.EveryAdmittedScheduleRunsToItsEnd : Prop :=
  ∀ (k : Nat) (s : State), s.Admitted →
    ∃ t, Sys2Proof.core.run k s = .next t ∧ t.schedule = s.schedule.drop k

/-- 42_stack_modes.md §2 (R145): any number of READs and WRITEs of PEEK. The statement also covers requests with start
low and steps past the end of the schedule, which are no READ or WRITE: that they go on, and keep SP, is the model's
idle step, its choice (log 2). -/
def Obligations.PeekNeverMovesTheStackPointer : Prop :=
  ∀ (k : Nat) (s : State), (∀ q ∈ s.schedule, q.code = 0x19) →
    ∃ t, Sys2Proof.core.run k s = .next t ∧ t.cpu.sp = s.cpu.sp

/-- 40_transactions.md §1 (R102): any number of READs of any codes, in any order, leaves memory, PC, O and the general
registers as they were; so every READ of a next word among them finds the same word (R185, R224). Requests with start
low and steps past the end of the schedule are no READ: that they go on, and keep the CPU state, is the model's idle
step, its choice (log 2). -/
def Obligations.ReadsNeverMoveTheNextWord : Prop :=
  ∀ (k : Nat) (s : State), (∀ q ∈ s.schedule, q.code < 64 ∧ q.op = .read) →
    ∃ t, Sys2Proof.core.run k s = .next t ∧ t.cpu = { s.cpu with sp := t.cpu.sp } ∧
      nextWordOf t.cpu = nextWordOf s.cpu

/-- 42_stack_modes.md §3 (R148, derived there). -/
def Obligations.PushThenPopRestoresTheStackPointer : Prop :=
  ∀ (s : State) (w w' : Word) (rest : List Request),
    s.schedule = asksRead 0x1A w :: asksRead 0x18 w' :: rest →
    ∃ t u, step s = .next t ∧ step t = .next u ∧
      t.rdata = s.cpu.mem.read (s.cpu.sp - 1).toNat ∧ u.rdata = t.rdata ∧ u.cpu = s.cpu

/-- 43_special_register_modes.md, opening (W3, W4, W9): what is written to a register, SP, PC, O or a cell through a
register is what the next READ of the same code delivers. -/
def Obligations.WriteIsVisibleToTheNextReadOfTheCode : Prop :=
  ∀ (s : State) (n : Nat) (v w : Word) (rest : List Request),
    n ≤ 0x0F ∨ (0x1B ≤ n ∧ n ≤ 0x1D) → s.schedule = asksWrite n v :: asksRead n w :: rest →
    ∃ t u, step s = .next t ∧ step t = .next u ∧ u.rdata = v ∧ u.cpu = t.cpu

/-- 41_register_modes.md §1 (R122, derived there): one register behind three codes. -/
def Obligations.WriteOfARegisterMovesItsIndirectOperands : Prop :=
  ∀ (s : State) (r : Fin 8) (v w : Word) (rest : List Request),
    (s.schedule = asksWrite r.val v :: asksRead (0x08 + r.val) w :: rest →
      ∃ t u, step s = .next t ∧ step t = .next u ∧ u.rdata = s.cpu.mem.read v.toNat) ∧
    (s.schedule = asksWrite r.val v :: asksRead (0x10 + r.val) w :: rest →
      ∃ t u, step s = .next t ∧ step t = .next u ∧
        u.rdata = s.cpu.mem.read (nextWordOf s.cpu + v).toNat)

/-- 43_special_register_modes.md §1 (R162, derived there) and 70_reset_and_hazards.md §3 (R228, derived there): SP is
one register for code 0x1B and the stack modes, so the order of two decodes is observable. -/
def Obligations.SpIsOneRegisterAndTheOrderOfDecodesShows : Prop :=
  ∀ (s : State) (v w w' : Word) (rest : List Request),
    (s.schedule = asksWrite 0x1B v :: asksRead 0x1A w :: rest →
      ∃ t u, step s = .next t ∧ step t = .next u ∧ u.cpu.sp = v - 1) ∧
    (s.schedule = asksRead 0x18 w :: asksRead 0x1B w' :: rest →
      ∃ t u, step s = .next t ∧ step t = .next u ∧ u.rdata = s.cpu.sp + 1) ∧
    (s.schedule = asksRead 0x1A w :: asksRead 0x1B w' :: rest →
      ∃ t u, step s = .next t ∧ step t = .next u ∧ u.rdata = s.cpu.sp - 1) ∧
    (s.schedule = asksRead 0x1B w :: asksRead 0x1A w' :: rest →
      ∃ t u, step s = .next t ∧ step t = .next u ∧ t.rdata = s.cpu.sp)

/-- 44_next_word_and_literal_modes.md §1 (R182, derived there): the next word holds its own address. -/
def Obligations.NextWordAtItsOwnAddressIsReplaced : Prop :=
  ∀ (s : State) (v w : Word) (rest : List Request), nextWordOf s.cpu = s.cpu.pc + 1 →
    (s.schedule = asksRead 0x1E w :: rest → ∃ t, step s = .next t ∧ t.rdata = s.cpu.pc + 1) ∧
    (s.schedule = asksWrite 0x1E v :: asksRead 0x1F w :: rest →
      ∃ t u, step s = .next t ∧ step t = .next u ∧ u.rdata = v) ∧
    (s.schedule = asksWrite 0x1E v :: asksRead 0x1E w :: rest →
      ∃ t u, step s = .next t ∧ step t = .next u ∧ u.rdata = t.cpu.mem.read v.toNat)

/-- 20_memory.md §4 (R63, derived there): a store to the address of the next word, by any mode that can reach it, is
what the next READ of the next word delivers. -/
def Obligations.StoreToTheNextWordIsSeenAtOnce : Prop :=
  ∀ (s : State) (n : Nat) (i : Instr) (v w : Word) (rest : List Request),
    decode n = .ok i → destination i s.cpu = some (s.cpu.pc + 1) →
    s.schedule = asksWrite n v :: asksRead 0x1F w :: rest →
    ∃ t u, step s = .next t ∧ step t = .next u ∧ u.rdata = v

/-- 70_reset_and_hazards.md §3 (R226, derived there): a WRITE after a READ of the same code goes to the cell its
register points to by then, not to the cell that was read. -/
def Obligations.WriteUsesTheAddressOfItsOwnTime : Prop :=
  ∀ (s : State) (r : Fin 8) (a v w : Word) (rest : List Request),
    s.schedule = asksRead (0x08 + r.val) w :: asksWrite r.val a :: asksWrite (0x08 + r.val) v :: rest →
    ∃ t u z, step s = .next t ∧ step t = .next u ∧ step u = .next z ∧
      t.rdata = s.cpu.mem.read s.cpu.x[r].toNat ∧
      ∀ n : Nat, z.cpu.mem.read n = if n % Config.memWords = a.toNat then v else s.cpu.mem.read n
end

