-- ==== Sys2Proof/Laws/Memory.lean ====
section
/-! SUPPORT. The laws of memory: what listing and unlisting a key do to a lookup, and that every memory operation
keeps the canonical form. -/

namespace Sys2Proof.Machine

theorem Memory.lookup_unlist (m : Memory) (k j : Nat) :
    (m.unlist k).lookup j = if j = k then Config.unlistedWord else m.lookup j := by
  induction m with
  | nil => simp [unlist, lookup]
  | cons c rest ih =>
    obtain ⟨i, w⟩ := c
    by_cases hik : i = k
    · subst hik
      simp only [unlist, if_true, ih, lookup]
      split <;> simp_all [eq_comm]
    · simp only [unlist, hik, if_false, lookup, ih]
      split <;> simp_all

theorem Memory.lookup_enlist_self (m : Memory) (k : Nat) (v : Word) (h : ∀ c ∈ m, c.1 ≠ k) :
    (m.enlist k v).lookup k = v := by
  induction m with
  | nil => simp [enlist, lookup]
  | cons c rest ih =>
    obtain ⟨j, w⟩ := c
    have hj : j ≠ k := h (j, w) (by simp)
    simp only [enlist]
    split
    · simp [lookup]
    · simp [lookup, hj, ih (fun c hc => h c (by simp [hc]))]

theorem Memory.lookup_enlist_other (m : Memory) (k j : Nat) (v : Word) (h : j ≠ k) :
    (m.enlist k v).lookup j = m.lookup j := by
  induction m with
  | nil => simp [enlist, lookup, h.symm]
  | cons c rest ih =>
    obtain ⟨i, w⟩ := c
    simp only [enlist]
    split
    · simp [lookup, h.symm]
    · simp [lookup, ih]

theorem Memory.mem_unlist {m : Memory} {k : Nat} {c : WordCell} :
    c ∈ m.unlist k ↔ c ∈ m ∧ c.1 ≠ k := by
  induction m with
  | nil => simp [unlist]
  | cons d rest ih =>
    obtain ⟨j, w⟩ := d
    by_cases hj : j = k
    · simp only [unlist, hj, if_true, ih, List.mem_cons]
      constructor
      · exact fun h => ⟨.inr h.1, h.2⟩
      · rintro ⟨rfl | h, hne⟩
        · exact absurd rfl hne
        · exact ⟨h, hne⟩
    · simp only [unlist, hj, if_false, List.mem_cons, ih]
      constructor
      · rintro (rfl | h)
        · exact ⟨.inl rfl, hj⟩
        · exact ⟨.inr h.1, h.2⟩
      · rintro ⟨rfl | h, hne⟩
        · exact .inl rfl
        · exact .inr ⟨h, hne⟩

theorem Memory.mem_enlist {m : Memory} {k : Nat} {v : Word} {c : WordCell} :
    c ∈ m.enlist k v ↔ c = (k, v) ∨ c ∈ m := by
  induction m with
  | nil => simp [enlist]
  | cons d rest ih =>
    obtain ⟨j, w⟩ := d
    simp only [enlist]
    split
    · simp
    · simp only [List.mem_cons, ih]; tauto

theorem Memory.rising_unlist {m : Memory} (k : Nat) (h : (m.map Prod.fst).Pairwise (· < ·)) :
    ((m.unlist k).map Prod.fst).Pairwise (· < ·) := by
  induction m with
  | nil => simp [unlist]
  | cons d rest ih =>
    obtain ⟨j, w⟩ := d
    simp only [List.map_cons, List.pairwise_cons, List.mem_map] at h
    simp only [unlist]
    split
    · exact ih h.2
    · simp only [List.map_cons, List.pairwise_cons, List.mem_map]
      refine ⟨?_, ih h.2⟩
      rintro _ ⟨c, hc, rfl⟩
      exact h.1 _ ⟨c, (mem_unlist.mp hc).1, rfl⟩

theorem Memory.rising_enlist {m : Memory} (k : Nat) (v : Word) (h : (m.map Prod.fst).Pairwise (· < ·))
    (hk : ∀ c ∈ m, c.1 ≠ k) : ((m.enlist k v).map Prod.fst).Pairwise (· < ·) := by
  induction m with
  | nil => simp [enlist]
  | cons d rest ih =>
    obtain ⟨j, w⟩ := d
    have hj : j ≠ k := hk (j, w) (by simp)
    simp only [List.map_cons, List.pairwise_cons, List.mem_map] at h
    simp only [enlist]
    split
    · rename_i hlt
      simp only [List.map_cons, List.pairwise_cons, List.mem_cons, List.mem_map]
      refine ⟨?_, h.1, h.2⟩
      rintro _ (rfl | ⟨c, hc, rfl⟩)
      · exact hlt
      · exact Nat.lt_trans hlt (h.1 _ ⟨c, hc, rfl⟩)
    · rename_i hge
      simp only [List.map_cons, List.pairwise_cons, List.mem_map]
      refine ⟨?_, ih h.2 (fun c hc => hk c (by simp [hc]))⟩
      rintro _ ⟨c, hc, rfl⟩
      rcases mem_enlist.mp hc with rfl | hc
      · show j < k; omega
      · exact h.1 _ ⟨c, hc, rfl⟩

theorem Memory.wf_nil : Memory.wf [] :=
  ⟨List.Pairwise.nil, by simp⟩

/-- A write keeps the canonical form. -/
theorem Memory.wf_write {m : Memory} (h : m.wf) (a : Nat) (v : Word) : (m.write a v).wf := by
  obtain ⟨hs, hc⟩ := h
  have hu : (m.unlist (a % Config.memWords)).wf :=
    ⟨rising_unlist _ hs, fun c hc' => hc c (mem_unlist.mp hc').1⟩
  simp only [write]
  split
  · exact hu
  · rename_i hv
    refine ⟨rising_enlist _ _ hu.1 (fun c hc' => (mem_unlist.mp hc').2), fun c hc' => ?_⟩
    rcases mem_enlist.mp hc' with rfl | hc'
    · exact ⟨Nat.mod_lt _ (by decide), hv⟩
    · exact hu.2 c hc'

end Sys2Proof.Machine
end

