-- ==== Sys2Proof/Laws/State.lean ====
section
/-! SUPPORT. One lemma per field per update, true by `rfl`, so that no later proof unfolds a record update; and the
three parts (value, CPU state, log) of each accessor of R23. -/

namespace Sys2Proof.Machine

/-! ### Updates of State -/

@[simp] theorem State.present_cpu (s : State) (q : Request) : (s.present q).cpu = s.cpu := rfl
@[simp] theorem State.present_code (s : State) (q : Request) : (s.present q).inp.code = BitVec.ofNat 6 q.code := rfl
@[simp] theorem State.present_op (s : State) (q : Request) : (s.present q).inp.op = q.op := rfl
@[simp] theorem State.present_wdata (s : State) (q : Request) : (s.present q).inp.wdata = q.wdata := rfl
@[simp] theorem State.present_start (s : State) (q : Request) : (s.present q).inp.start = q.start := rfl
@[simp] theorem State.present_rdata (s : State) (q : Request) : (s.present q).rdata = s.rdata := rfl
@[simp] theorem State.present_activity (s : State) (q : Request) : (s.present q).activity = s.activity := rfl
@[simp] theorem State.present_schedule (s : State) (q : Request) : (s.present q).schedule = s.schedule := rfl
@[simp] theorem State.present_freeCount (s : State) (q : Request) : (s.present q).freeCount = s.freeCount := rfl

@[simp] theorem State.deassert_cpu (s : State) : s.deassert.cpu = s.cpu := rfl
@[simp] theorem State.deassert_code (s : State) : s.deassert.inp.code = s.inp.code := rfl
@[simp] theorem State.deassert_start (s : State) : s.deassert.inp.start = false := rfl
@[simp] theorem State.deassert_rdata (s : State) : s.deassert.rdata = s.rdata := rfl
@[simp] theorem State.deassert_activity (s : State) : s.deassert.activity = s.activity := rfl
@[simp] theorem State.deassert_schedule (s : State) : s.deassert.schedule = s.schedule := rfl
@[simp] theorem State.deassert_freeCount (s : State) : s.deassert.freeCount = s.freeCount := rfl

@[simp] theorem State.idle_cpu (s : State) : s.idle.cpu = s.cpu := rfl
@[simp] theorem State.idle_inp (s : State) : s.idle.inp = s.inp := rfl
@[simp] theorem State.idle_activity (s : State) : s.idle.activity = [] := rfl
@[simp] theorem State.idle_schedule (s : State) : s.idle.schedule = s.schedule := rfl
@[simp] theorem State.idle_freeCount (s : State) : s.idle.freeCount = s.freeCount + 1 := rfl

@[simp] theorem State.afterRead_cpu (s : State) (f : Tx → Word × Tx) :
    (s.afterRead f).cpu = (f ⟨s.cpu, []⟩).2.cpu := rfl
@[simp] theorem State.afterRead_inp (s : State) (f : Tx → Word × Tx) : (s.afterRead f).inp = s.inp := rfl
@[simp] theorem State.afterRead_rdata (s : State) (f : Tx → Word × Tx) :
    (s.afterRead f).rdata = (f ⟨s.cpu, []⟩).1 := rfl
@[simp] theorem State.afterRead_activity (s : State) (f : Tx → Word × Tx) :
    (s.afterRead f).activity = (f ⟨s.cpu, []⟩).2.log := rfl
@[simp] theorem State.afterRead_schedule (s : State) (f : Tx → Word × Tx) :
    (s.afterRead f).schedule = s.schedule := rfl
@[simp] theorem State.afterRead_freeCount (s : State) (f : Tx → Word × Tx) :
    (s.afterRead f).freeCount = s.freeCount := rfl

@[simp] theorem State.afterWrite_cpu (s : State) (f : Word → Tx → Tx) :
    (s.afterWrite f).cpu = (f s.inp.wdata ⟨s.cpu, []⟩).cpu := rfl
@[simp] theorem State.afterWrite_inp (s : State) (f : Word → Tx → Tx) : (s.afterWrite f).inp = s.inp := rfl
@[simp] theorem State.afterWrite_activity (s : State) (f : Word → Tx → Tx) :
    (s.afterWrite f).activity = (f s.inp.wdata ⟨s.cpu, []⟩).log := rfl
@[simp] theorem State.afterWrite_schedule (s : State) (f : Word → Tx → Tx) :
    (s.afterWrite f).schedule = s.schedule := rfl
@[simp] theorem State.afterWrite_freeCount (s : State) (f : Word → Tx → Tx) :
    (s.afterWrite f).freeCount = s.freeCount + 1 := rfl

@[simp] theorem State.start_cpu (c : Cpu) : (State.start c).cpu = c := rfl
@[simp] theorem State.start_schedule (c : Cpu) : (State.start c).schedule = [] := rfl

/-! ### The accessors -/

@[simp] theorem Tx.note_cpu (t : Tx) (a : Access) : (t.note a).cpu = t.cpu := rfl
@[simp] theorem Tx.note_log (t : Tx) (a : Access) : (t.note a).log = t.log ++ [a] := rfl

@[simp] theorem Tx.register_value (t : Tx) (i : Fin 8) : (t.register i).1 = t.cpu.x[i] := rfl
@[simp] theorem Tx.register_cpu (t : Tx) (i : Fin 8) : (t.register i).2.cpu = t.cpu := rfl
@[simp] theorem Tx.register_log (t : Tx) (i : Fin 8) : (t.register i).2.log = t.log ++ [.register i] := rfl
@[simp] theorem Tx.setRegister_cpu (t : Tx) (i : Fin 8) (v : Word) :
    (t.setRegister i v).cpu = { t.cpu with x := t.cpu.x.set i v } := rfl
@[simp] theorem Tx.setRegister_log (t : Tx) (i : Fin 8) (v : Word) :
    (t.setRegister i v).log = t.log ++ [.setRegister i v] := rfl
@[simp] theorem Tx.getStackPointer_value (t : Tx) : t.getStackPointer.1 = t.cpu.sp := rfl
@[simp] theorem Tx.getStackPointer_cpu (t : Tx) : t.getStackPointer.2.cpu = t.cpu := rfl
@[simp] theorem Tx.getStackPointer_log (t : Tx) : t.getStackPointer.2.log = t.log ++ [.getStackPointer] := rfl
@[simp] theorem Tx.setStackPointer_cpu (t : Tx) (v : Word) :
    (t.setStackPointer v).cpu = { t.cpu with sp := v } := rfl
@[simp] theorem Tx.setStackPointer_log (t : Tx) (v : Word) :
    (t.setStackPointer v).log = t.log ++ [.setStackPointer v] := rfl
@[simp] theorem Tx.spPostInc_value (t : Tx) : t.spPostInc.1 = t.cpu.sp := rfl
@[simp] theorem Tx.spPostInc_cpu (t : Tx) : t.spPostInc.2.cpu = { t.cpu with sp := t.cpu.sp + 1 } := rfl
@[simp] theorem Tx.spPostInc_log (t : Tx) : t.spPostInc.2.log = t.log ++ [.getStackPointerAndIncrement] := rfl
@[simp] theorem Tx.spPreDec_value (t : Tx) : t.spPreDec.1 = t.cpu.sp - 1 := rfl
@[simp] theorem Tx.spPreDec_cpu (t : Tx) : t.spPreDec.2.cpu = { t.cpu with sp := t.cpu.sp - 1 } := rfl
@[simp] theorem Tx.spPreDec_log (t : Tx) : t.spPreDec.2.log = t.log ++ [.getStackPointerAndDecrement] := rfl
@[simp] theorem Tx.getProgramCounter_value (t : Tx) : t.getProgramCounter.1 = t.cpu.pc := rfl
@[simp] theorem Tx.getProgramCounter_cpu (t : Tx) : t.getProgramCounter.2.cpu = t.cpu := rfl
@[simp] theorem Tx.getProgramCounter_log (t : Tx) :
    t.getProgramCounter.2.log = t.log ++ [.getProgramCounter] := rfl
@[simp] theorem Tx.setProgramCounter_cpu (t : Tx) (v : Word) :
    (t.setProgramCounter v).cpu = { t.cpu with pc := v } := rfl
@[simp] theorem Tx.setProgramCounter_log (t : Tx) (v : Word) :
    (t.setProgramCounter v).log = t.log ++ [.setProgramCounter v] := rfl
@[simp] theorem Tx.nextPC_value (t : Tx) : t.nextPC.1 = t.cpu.pc + 1 := rfl
@[simp] theorem Tx.nextPC_cpu (t : Tx) : t.nextPC.2.cpu = t.cpu := rfl
@[simp] theorem Tx.nextPC_log (t : Tx) : t.nextPC.2.log = t.log ++ [.getNextProgramCounter] := rfl
@[simp] theorem Tx.memRead_value (t : Tx) (a : Word) : (t.memRead a).1 = t.cpu.mem.read a.toNat := rfl
@[simp] theorem Tx.memRead_cpu (t : Tx) (a : Word) : (t.memRead a).2.cpu = t.cpu := rfl
@[simp] theorem Tx.memRead_log (t : Tx) (a : Word) : (t.memRead a).2.log = t.log ++ [.readFrom a] := rfl
@[simp] theorem Tx.memWrite_cpu (t : Tx) (a v : Word) :
    (t.memWrite a v).cpu = { t.cpu with mem := t.cpu.mem.write a.toNat v } := rfl
@[simp] theorem Tx.memWrite_log (t : Tx) (a v : Word) : (t.memWrite a v).log = t.log ++ [.writeAt a v] := rfl
@[simp] theorem Tx.getOverflow_value (t : Tx) : t.getOverflow.1 = t.cpu.o := rfl
@[simp] theorem Tx.getOverflow_cpu (t : Tx) : t.getOverflow.2.cpu = t.cpu := rfl
@[simp] theorem Tx.getOverflow_log (t : Tx) : t.getOverflow.2.log = t.log ++ [.getOverflow] := rfl
@[simp] theorem Tx.setOverflow_cpu (t : Tx) (v : Word) : (t.setOverflow v).cpu = { t.cpu with o := v } := rfl
@[simp] theorem Tx.setOverflow_log (t : Tx) (v : Word) : (t.setOverflow v).log = t.log ++ [.setOverflow v] := rfl

end Sys2Proof.Machine
end

