-- ==== Sys2Proof/Laws/Modes.lean ====
section
/-! SUPPORT. One equation per addressing mode and transaction: the value, the CPU state and the accessor calls, said
once, so that no later proof unfolds a mode; and what one transaction can do. -/

namespace Sys2Proof.Machine

/-! ### Operands -/

theorem nextWord_eq (t : Tx) :
    nextWord t = (t.cpu.mem.read (t.cpu.pc + 1).toNat,
      ⟨t.cpu, t.log ++ [.getNextProgramCounter, .readFrom (t.cpu.pc + 1)]⟩) := by
  simp [nextWord, Tx.nextPC, Tx.memRead, Tx.note]

theorem indRegNextAddress_eq (r : Fin 8) (t : Tx) :
    indRegNextAddress r t = (t.cpu.mem.read (t.cpu.pc + 1).toNat + t.cpu.x[r],
      ⟨t.cpu, t.log ++ [.getNextProgramCounter, .readFrom (t.cpu.pc + 1), .register r]⟩) := by
  simp [indRegNextAddress, nextWord_eq, Tx.register, Tx.note]

/-! ### The modes that compute an address -/

theorem readIndReg_eq (r : Fin 8) (t : Tx) :
    readIndReg r t = (t.cpu.mem.read t.cpu.x[r].toNat,
      ⟨t.cpu, t.log ++ [.register r, .readFrom t.cpu.x[r]]⟩) := by
  simp [readIndReg, indRegAddress, Tx.register, Tx.memRead, Tx.note]

theorem writeIndReg_eq (r : Fin 8) (v : Word) (t : Tx) :
    writeIndReg r v t = ⟨{ t.cpu with mem := t.cpu.mem.write t.cpu.x[r].toNat v },
      t.log ++ [.register r, .writeAt t.cpu.x[r] v]⟩ := by
  simp [writeIndReg, indRegAddress, Tx.register, Tx.memWrite, Tx.note]

theorem readIndRegNext_eq (r : Fin 8) (t : Tx) :
    readIndRegNext r t =
      (t.cpu.mem.read (t.cpu.mem.read (t.cpu.pc + 1).toNat + t.cpu.x[r]).toNat,
        ⟨t.cpu, t.log ++ [.getNextProgramCounter, .readFrom (t.cpu.pc + 1), .register r,
          .readFrom (t.cpu.mem.read (t.cpu.pc + 1).toNat + t.cpu.x[r])]⟩) := by
  simp [readIndRegNext, indRegNextAddress_eq, Tx.memRead, Tx.note]

theorem writeIndRegNext_eq (r : Fin 8) (v : Word) (t : Tx) :
    writeIndRegNext r v t =
      ⟨{ t.cpu with mem := t.cpu.mem.write (t.cpu.mem.read (t.cpu.pc + 1).toNat + t.cpu.x[r]).toNat v },
        t.log ++ [.getNextProgramCounter, .readFrom (t.cpu.pc + 1), .register r,
          .writeAt (t.cpu.mem.read (t.cpu.pc + 1).toNat + t.cpu.x[r]) v]⟩ := by
  simp [writeIndRegNext, indRegNextAddress_eq, Tx.memWrite]

theorem readPop_eq (t : Tx) :
    readPop t = (t.cpu.mem.read t.cpu.sp.toNat, ⟨{ t.cpu with sp := t.cpu.sp + 1 },
      t.log ++ [.getStackPointerAndIncrement, .readFrom t.cpu.sp]⟩) := by
  simp [readPop, Tx.spPostInc, Tx.memRead, Tx.note]

theorem readPeek_eq (t : Tx) :
    readPeek t = (t.cpu.mem.read t.cpu.sp.toNat,
      ⟨t.cpu, t.log ++ [.getStackPointer, .readFrom t.cpu.sp]⟩) := by
  simp [readPeek, Tx.getStackPointer, Tx.memRead, Tx.note]

theorem readPush_eq (t : Tx) :
    readPush t = (t.cpu.mem.read (t.cpu.sp - 1).toNat, ⟨{ t.cpu with sp := t.cpu.sp - 1 },
      t.log ++ [.getStackPointerAndDecrement, .readFrom (t.cpu.sp - 1)]⟩) := by
  simp [readPush, Tx.spPreDec, Tx.memRead, Tx.note]

theorem readIndNext_eq (t : Tx) :
    readIndNext t = (t.cpu.mem.read (t.cpu.mem.read (t.cpu.pc + 1).toNat).toNat,
      ⟨t.cpu, t.log ++ [.getNextProgramCounter, .readFrom (t.cpu.pc + 1),
        .readFrom (t.cpu.mem.read (t.cpu.pc + 1).toNat)]⟩) := by
  simp [readIndNext, indNextAddress, nextWord_eq, Tx.memRead, Tx.note]

theorem writeIndNext_eq (v : Word) (t : Tx) :
    writeIndNext v t =
      ⟨{ t.cpu with mem := t.cpu.mem.write (t.cpu.mem.read (t.cpu.pc + 1).toNat).toNat v },
        t.log ++ [.getNextProgramCounter, .readFrom (t.cpu.pc + 1),
          .writeAt (t.cpu.mem.read (t.cpu.pc + 1).toNat) v]⟩ := by
  simp [writeIndNext, indNextAddress, nextWord_eq, Tx.memWrite]

/-! ### A transaction -/

theorem transact_read {s : State} (h : s.inp.op = .read) (rd : Tx → Word × Tx) (wr : Word → Tx → Tx) :
    transact rd wr s = .next (s.afterRead rd) := by
  simp [transact, h]

theorem transact_write {s : State} (h : s.inp.op = .write) (rd : Tx → Word × Tx) (wr : Word → Tx → Tx) :
    transact rd wr s = .next (s.afterWrite wr) := by
  simp [transact, h]

/-- Every arm of `exec` is one transaction of its mode's READ and WRITE rule (R110). -/
theorem exec_eq_transact (i : Instr) (s : State) : exec i s = transact (readMode i) (writeMode i) s := by
  cases i <;> rfl

/-- All that `exec` can answer: the state after the mode's READ, or after its WRITE. -/
theorem exec_cases {i : Instr} {s t : State} (h : exec i s = .next t) :
    (s.inp.op = .read ∧ t = s.afterRead (readMode i)) ∨
    (s.inp.op = .write ∧ t = s.afterWrite (writeMode i)) := by
  rw [exec_eq_transact] at h
  cases hop : s.inp.op with
  | read => rw [transact_read hop] at h; exact .inl ⟨rfl, by cases h; rfl⟩
  | write => rw [transact_write hop] at h; exact .inr ⟨rfl, by cases h; rfl⟩

end Sys2Proof.Machine
end

