-- ==== Sys2Proof/Laws/PerInstr.lean ====
section
/-! SUPPORT. Per instruction: the operand code of a mode decodes back to the mode, with its operand. -/

namespace Sys2Proof.Laws.CodeRoundTrip

/-- The 6-bit decode of the mode's operand code is the mode (R71, R101). -/
def Statement (i : Instr) : Prop :=
  decodeCode (encode i) = i

theorem reg (r : Fin 8) : Statement (.reg r) := by
  unfold Statement; revert r; decide
theorem indReg (r : Fin 8) : Statement (.indReg r) := by
  unfold Statement; revert r; decide
theorem indRegNext (r : Fin 8) : Statement (.indRegNext r) := by
  unfold Statement; revert r; decide
theorem pop : Statement .pop := by
  unfold Statement; decide
theorem peek : Statement .peek := by
  unfold Statement; decide
theorem push : Statement .push := by
  unfold Statement; decide
theorem sp : Statement .sp := by
  unfold Statement; decide
theorem pc : Statement .pc := by
  unfold Statement; decide
theorem o : Statement .o := by
  unfold Statement; decide
theorem indNext : Statement .indNext := by
  unfold Statement; decide
theorem next : Statement .next := by
  unfold Statement; decide
theorem literal (lit : BitVec 5) : Statement (.literal lit) := by
  unfold Statement; revert lit; decide

end Sys2Proof.Laws.CodeRoundTrip
end

