-- ==== Sys2Proof/Laws/Step.lean ====
section
/-! SUPPORT. What one step can do, said once; and how a run unrolls. -/

namespace Sys2Proof.Machine

/-- A code in range passes the boundary. -/
theorem decode_inRange {n : Nat} (h : n < Config.codeCount) :
    decode n = .ok (decodeCode (BitVec.ofNat 6 n)) := by
  simp [decode, h]

/-- Where `decode` answers a mode, the number was in range and the mode is its code's. -/
theorem decode_ok {n : Nat} {i : Instr} (h : decode n = .ok i) :
    n < Config.codeCount ∧ i = decodeCode (BitVec.ofNat 6 n) := by
  simp only [decode] at h
  split at h
  · cases h; exact ⟨‹_›, rfl⟩
  · cases h

/-- All that a step that goes on can have done: no request; a request without `start`; or the transaction of the
decoded mode. -/
theorem step_cases {s t : State} (h : step s = .next t) :
    (s.schedule = [] ∧ t = s.deassert.idle) ∨
    ∃ q rest i, s.schedule = q :: rest ∧ q.code < Config.codeCount ∧ i = decodeCode (BitVec.ofNat 6 q.code) ∧
      ((q.start = false ∧ t = ({ s with schedule := rest }.present q).idle) ∨
       (q.start = true ∧ exec i ({ s with schedule := rest }.present q) = .next t)) := by
  simp only [step, takeRequest] at h
  cases hs : s.schedule with
  | nil =>
    simp only [hs] at h
    cases h
    exact .inl ⟨rfl, rfl⟩
  | cons q rest =>
    simp only [hs, issue] at h
    right
    cases hd : decode q.code with
    | error e => simp [hd] at h
    | ok i =>
      obtain ⟨hlt, hi⟩ := decode_ok hd
      refine ⟨q, rest, i, rfl, hlt, hi, ?_⟩
      cases hst : q.start with
      | false =>
        simp only [hd, hst, Bool.false_eq_true, if_false] at h
        cases h
        exact .inl ⟨rfl, rfl⟩
      | true =>
        simp only [hd, hst, if_true] at h
        exact .inr ⟨rfl, h⟩

theorem run_zero (s : State) : Sys2Proof.core.run 0 s = .next s := rfl

/-- A run of one step more, where the first step goes on. -/
theorem run_succ {s t : State} (k : Nat) (h : step s = .next t) :
    Sys2Proof.core.run (k + 1) s = Sys2Proof.core.run k t := by
  simp only [Host.Core.run]
  rw [show Sys2Proof.core.step s = step s from rfl, h]

end Sys2Proof.Machine
end

