-- ==== Sys2Proof/Tests/Slice0.lean ====
section
/-! SUPPORT. The model's own tests: the boundary's check on ill-formed requests, codes written out bit by bit, the
vectors of 95_test_vectors.md, and for every statement with hypotheses a concrete state that meets them. Expected
values are the spec's; the vector or rule stands in each docstring. -/

namespace Sys2Proof.Tests

open Sys2Proof Sys2Proof.Machine Sys2Proof.Statement

/-! ### Helpers -/

/-- The state a step or a meaning answers, if it goes on. -/
def resultOf (r : Host.Outcome State Fault Refusal) : Option State :=
  match r with
  | .next s => some s
  | .fault _ => none
  | .refused _ => none

/-- A CPU state with SP, PC and O as given, one general register set, and the listed memory. -/
def cpuWith (sp pc o : Word) (r : Fin 8) (v : Word) (mem : Memory) : Cpu :=
  { x := Cpu.reset.x.set r v, sp := sp, pc := pc, o := o, mem := mem }

/-- The machine on a CPU state with a READ on its ports. -/
def onRead (c : Cpu) : State :=
  { State.start c with inp := { code := 0, op := .read, wdata := 0, start := true } }

/-- The machine on a CPU state with a WRITE of `v` on its ports. -/
def onWrite (c : Cpu) (v : Word) : State :=
  { State.start c with inp := { code := 0, op := .write, wdata := v, start := true } }

/-- The machine on a CPU state with requests to come. -/
def withSchedule (c : Cpu) (qs : List Request) : State :=
  { State.start c with schedule := qs }

/-- The value on `rdata` after a READ that goes on. -/
def rdataOf (r : Host.Outcome State Fault Refusal) : Option Word :=
  (resultOf r).map State.rdata

/-- One part of the CPU state after a step that goes on. -/
def cpuOf {α : Type} (f : Cpu → α) (r : Host.Outcome State Fault Refusal) : Option α :=
  (resultOf r).map fun s => f s.cpu

/-! ### WellFormed and the boundary (R81, R202) -/

theorem test_wellFormed_refuses_code_64 : (asksRead 64 0).wellFormed = false := by decide
theorem test_wellFormed_accepts_code_63 : (asksRead 63 0).wellFormed = true := by decide
theorem test_decode_refuses_64_by_name : decode 64 = .error (.codeOutOfRange 64) := by rfl
theorem test_decode_does_not_truncate_256 : decodeTableWord 8 256 = none := by decide
theorem test_step_refuses_code_64 :
    step (withSchedule Cpu.reset [asksRead 64 0]) = .refused (.operandCodeOutOfRange 64) := by rfl

/-! ### Codes written out bit by bit from the formats of R71, one per row (R75) -/

theorem test_decode_reg : decodeTableWord 8 0b000101 = some (.reg 5) := by decide
theorem test_decode_indReg : decodeTableWord 8 0b001010 = some (.indReg 2) := by decide
theorem test_decode_indRegNext : decodeTableWord 8 0b010111 = some (.indRegNext 7) := by decide
theorem test_decode_pop : decodeTableWord 8 0b011000 = some .pop := by decide
theorem test_decode_peek : decodeTableWord 8 0b011001 = some .peek := by decide
theorem test_decode_push : decodeTableWord 8 0b011010 = some .push := by decide
theorem test_decode_sp : decodeTableWord 8 0b011011 = some .sp := by decide
theorem test_decode_pc : decodeTableWord 8 0b011100 = some .pc := by decide
theorem test_decode_o : decodeTableWord 8 0b011101 = some .o := by decide
theorem test_decode_indNext : decodeTableWord 8 0b011110 = some .indNext := by decide
theorem test_decode_next : decodeTableWord 8 0b011111 = some .next := by decide
theorem test_decode_literal : decodeTableWord 8 0b101010 = some (.literal 0b01010) := by decide

/-- Each code lies in one row of the table of R75 and in no other (C6, C8), and the decode has the row's tag and
size. -/
theorem test_rows_partition_the_codes : ∀ c : BitVec 6,
    (opcodeRows.filter fun row => row.covers c).map (fun row => (row.tag, row.size)) =
      [(TYPE c, SIZE c)] := by decide

/-- "Totals: 28 codes write state, 36 are write no-ops; 10 codes have SIZE 1" (95_test_vectors.md 2.12). -/
theorem test_totals_of_the_table :
    ((List.range 64).filter fun n => opcodeRows.any fun row => row.covers (BitVec.ofNat 6 n) && row.writable).length = 28 ∧
    ((List.range 64).filter fun n => SIZE (BitVec.ofNat 6 n) == 1).length = 10 := by decide

/-- R76, R77: an instruction with codes 0x1E and 0x1F has three words (program P2). -/
theorem test_instruction_words : instructionWords 0x1E 0x1F = 3 := by decide

/-- R83: `[0x10 + R0]` is code 0x10 with its next word. -/
theorem test_spelling_of_code_0x10 : (decodeCode 0x10).spelling = "[next + R0]" := by rfl

/-! ### Every mode, READ and WRITE: the vectors of 95_test_vectors.md; each also meets its statement's hypotheses -/

/-- V-DR-2. -/
theorem witness_ReadOfARegisterDeliversIt :
    (onRead (cpuWith 0 0 0 7 0xFFFF [])).inp.op = .read ∧
    rdataOf (exec (.reg 7) (onRead (cpuWith 0 0 0 7 0xFFFF []))) = some 0xFFFF := by decide

/-- V-DR-3: only `x[5]`. -/
theorem witness_WriteOfARegisterSetsItAlone :
    (onWrite (cpuWith 0x1000 0x0200 1 4 0x2222 []) 0xABCD).inp.op = .write ∧
    cpuOf id (exec (.reg 5) (onWrite (cpuWith 0x1000 0x0200 1 4 0x2222 []) 0xABCD)) =
      some { x := #v[0, 0, 0, 0, 0x2222, 0xABCD, 0, 0], sp := 0x1000, pc := 0x0200, o := 1, mem := [] } := by decide

/-- V-IR-1: the top address. -/
theorem witness_ReadThroughARegisterLoadsItsCell :
    (onRead (cpuWith 0 0 0 1 0xFFFF [(0xFFFF, 0x1234)])).inp.op = .read ∧
    rdataOf (exec (.indReg 1) (onRead (cpuWith 0 0 0 1 0xFFFF [(0xFFFF, 0x1234)]))) = some 0x1234 := by decide

/-- V-IR-3. -/
theorem witness_WriteThroughARegisterStoresAtItsCell :
    (onWrite (cpuWith 0 0 0 7 0x8000 []) 0x00AA).inp.op = .write ∧
    cpuOf Cpu.mem (exec (.indReg 7) (onWrite (cpuWith 0 0 0 7 0x8000 []) 0x00AA)) = some [(0x8000, 0x00AA)] := by decide

/-- V-IRN-2: the sum wraps. -/
theorem witness_ReadIndexedByNextWordLoadsTheSumCell :
    (onRead (cpuWith 0 0x0300 0 2 2 [(0x0001, 0x0777), (0x0301, 0xFFFF)])).inp.op = .read ∧
    rdataOf (exec (.indRegNext 2) (onRead (cpuWith 0 0x0300 0 2 2 [(0x0001, 0x0777), (0x0301, 0xFFFF)]))) =
      some 0x0777 := by decide

/-- V-IRN-6, its WRITE: the next word itself is replaced, and PC does not move. -/
theorem witness_WriteIndexedByNextWordStoresAtTheSumCell :
    (onWrite (cpuWith 0 0x0600 0 4 1 [(0x0601, 0x0600)]) 0x0700).inp.op = .write ∧
    cpuOf (fun c => (c.mem, c.pc)) (exec (.indRegNext 4) (onWrite (cpuWith 0 0x0600 0 4 1 [(0x0601, 0x0600)]) 0x0700)) =
      some ([(0x0601, 0x0700)], 0x0600) := by decide

/-- V-POP-2: SP wraps up, and the value is from the old SP. -/
theorem witness_ReadOfPopLoadsThenIncrements :
    (onRead (cpuWith 0xFFFF 0 0 0 0 [(0xFFFF, 0x00FF)])).inp.op = .read ∧
    (resultOf (exec .pop (onRead (cpuWith 0xFFFF 0 0 0 0 [(0xFFFF, 0x00FF)])))).map (fun t => (t.rdata, t.cpu.sp)) =
      some (0x00FF, 0x0000) := by decide

/-- V-POP-4. -/
theorem witness_WriteOfPopDoesNothing :
    (onWrite (cpuWith 0x1000 0 0 0 0 []) 0x7777).inp.op = .write ∧
    cpuOf id (exec .pop (onWrite (cpuWith 0x1000 0 0 0 0 []) 0x7777)) = some (cpuWith 0x1000 0 0 0 0 []) := by decide

/-- V-PEEK-1. -/
theorem witness_ReadOfPeekLoadsTheTop :
    (onRead (cpuWith 0 0 0 0 0 [(0, 0xAAAA)])).inp.op = .read ∧
    (resultOf (exec .peek (onRead (cpuWith 0 0 0 0 0 [(0, 0xAAAA)])))).map (fun t => (t.rdata, t.cpu.sp)) =
      some (0xAAAA, 0x0000) := by decide

/-- V-PEEK-3. -/
theorem witness_WriteOfPeekDoesNothing :
    (onWrite (cpuWith 0x2000 0 0 0 0 [(0x2000, 1)]) 5).inp.op = .write ∧
    cpuOf Cpu.mem (exec .peek (onWrite (cpuWith 0x2000 0 0 0 0 [(0x2000, 1)]) 5)) = some [(0x2000, 1)] := by decide

/-- V-PUSH-2: SP wraps down, and the value is from the new SP. -/
theorem witness_ReadOfPushDecrementsThenLoads :
    (onRead (cpuWith 0 0 0 0 0 [(0xFFFF, 0x2468)])).inp.op = .read ∧
    (resultOf (exec .push (onRead (cpuWith 0 0 0 0 0 [(0xFFFF, 0x2468)])))).map (fun t => (t.rdata, t.cpu.sp)) =
      some (0x2468, 0xFFFF) := by decide

/-- V-PUSH-3. -/
theorem witness_WriteOfPushDoesNothing :
    (onWrite (cpuWith 0xFFFF 0 0 0 0 []) 0x1234).inp.op = .write ∧
    cpuOf id (exec .push (onWrite (cpuWith 0xFFFF 0 0 0 0 []) 0x1234)) = some (cpuWith 0xFFFF 0 0 0 0 []) := by decide

/-- V-SP-1. -/
theorem witness_ReadOfSpDeliversIt :
    (onRead (cpuWith 0x1234 1 2 0 3 [])).inp.op = .read ∧
    rdataOf (exec .sp (onRead (cpuWith 0x1234 1 2 0 3 []))) = some 0x1234 := by decide

/-- R161's example, its WRITE. -/
theorem witness_WriteOfSpSetsItAlone :
    (onWrite (cpuWith 1 2 3 0 4 []) 0x8000).inp.op = .write ∧
    cpuOf id (exec .sp (onWrite (cpuWith 1 2 3 0 4 []) 0x8000)) = some (cpuWith 0x8000 2 3 0 4 []) := by decide

/-- V-PC-1. -/
theorem witness_ReadOfPcDeliversIt :
    (onRead (cpuWith 1 0x0100 2 0 3 [])).inp.op = .read ∧
    rdataOf (exec .pc (onRead (cpuWith 1 0x0100 2 0 3 []))) = some 0x0100 := by decide

/-- V-PC-3, its WRITE. -/
theorem witness_WriteOfPcSetsItAlone :
    (onWrite (cpuWith 1 2 3 0 4 []) 0xFFFF).inp.op = .write ∧
    cpuOf id (exec .pc (onWrite (cpuWith 1 2 3 0 4 []) 0xFFFF)) = some (cpuWith 1 0xFFFF 3 0 4 []) := by decide

/-- V-O-1. -/
theorem witness_ReadOfOverflowDeliversTheWholeWord :
    (onRead (cpuWith 1 2 0xFFFF 0 3 [])).inp.op = .read ∧
    rdataOf (exec .o (onRead (cpuWith 1 2 0xFFFF 0 3 []))) = some 0xFFFF ∧
    cpuOf Cpu.o (exec .o (onWrite (cpuWith 1 2 0xFFFF 0 3 []) 0)) ≠ some (cpuWith 1 2 0xFFFF 0 3 []).o := by decide

/-- V-O-2, its WRITE. -/
theorem witness_WriteOfOverflowSetsTheWholeWordAlone :
    (onWrite (cpuWith 1 2 3 0 4 []) 0x8001).inp.op = .write ∧
    cpuOf id (exec .o (onWrite (cpuWith 1 2 3 0 4 []) 0x8001)) = some (cpuWith 1 2 0x8001 0 4 []) := by decide

/-- V-NW-4: the next word at 0x0000. -/
theorem witness_ReadNextWordIndirectLoadsItsCell :
    (onRead (cpuWith 0 0xFFFF 0 0 0 [(0, 4), (4, 0x0044)])).inp.op = .read ∧
    rdataOf (exec .indNext (onRead (cpuWith 0 0xFFFF 0 0 0 [(0, 4), (4, 0x0044)]))) = some 0x0044 := by decide

/-- V-NW-5. -/
theorem witness_WriteNextWordIndirectStoresAtItsCell :
    (onWrite (cpuWith 0 0x0100 0 0 0 [(0x0101, 0x1000)]) 0x0020).inp.op = .write ∧
    cpuOf Cpu.mem (exec .indNext (onWrite (cpuWith 0 0x0100 0 0 0 [(0x0101, 0x1000)]) 0x0020)) =
      some [(0x0101, 0x1000), (0x1000, 0x0020)] := by decide

/-- V-NW-3. -/
theorem witness_ReadNextWordDeliversIt :
    (onRead (cpuWith 0 0xFFFF 0 0 0 [(0, 0x0123)])).inp.op = .read ∧
    (resultOf (exec .next (onRead (cpuWith 0 0xFFFF 0 0 0 [(0, 0x0123)])))).map (fun t => (t.rdata, t.cpu.pc)) =
      some (0x0123, 0xFFFF) := by decide

/-- V-NW-6. -/
theorem witness_WriteNextWordDoesNothing :
    (onWrite (cpuWith 0 0x0100 0 0 0 [(0x0101, 0x55)]) 0x66).inp.op = .write ∧
    cpuOf Cpu.mem (exec .next (onWrite (cpuWith 0 0x0100 0 0 0 [(0x0101, 0x55)]) 0x66)) = some [(0x0101, 0x55)] := by decide

/-- V-LIT-2. -/
theorem witness_ReadOfALiteralDeliversCodeMinus0x20 :
    (onRead Cpu.reset).inp.op = .read ∧
    rdataOf (exec (.literal 0b11111) (onRead Cpu.reset)) = some 0x001F := by decide

/-- V-LIT-4, its WRITE. -/
theorem witness_WriteOfALiteralDoesNothing :
    (onWrite (cpuWith 1 2 3 0 4 []) 0x1234).inp.op = .write ∧
    cpuOf id (exec (.literal 0b00101) (onWrite (cpuWith 1 2 3 0 4 []) 0x1234)) = some (cpuWith 1 2 3 0 4 []) := by decide

/-! ### The other statements' hypotheses, each met by a concrete state; boundary values where a range is read -/

/-- The codes at the ends of the ranges of R76: 0x0F, 0x10, 0x17, 0x18, 0x1D, 0x1E, 0x1F, 0x20. -/
theorem witness_SizeOutputMarksTheNextWordCodes :
    ([0x0F, 0x10, 0x17, 0x18, 0x1D, 0x1E, 0x1F, 0x20].map fun n =>
      (resultOf (step (withSchedule Cpu.reset [asksRead n 0]))).map State.sizeOut) =
      [some 0, some 1, some 1, some 0, some 0, some 1, some 1, some 0] := by decide

/-- The codes 0x07 and 0x08 are in two rows, 0x20 and 0x3F in one (R75). -/
theorem witness_TagOutputTellsTheRowsApart :
    (resultOf (step (withSchedule Cpu.reset [asksRead 0x07 0]))).map State.tagOut ≠
      (resultOf (step (withSchedule Cpu.reset [asksRead 0x08 0]))).map State.tagOut ∧
    ((resultOf (step (withSchedule Cpu.reset [asksRead 0x20 0]))).map State.tagOut).isSome = true ∧
    (resultOf (step (withSchedule Cpu.reset [asksRead 0x20 0]))).map State.tagOut =
      (resultOf (step (withSchedule Cpu.reset [asksRead 0x3F 0]))).map State.tagOut := by decide

theorem witness_StepRunsTheDecodedMode :
    (withSchedule Cpu.reset [asksRead 0x3F 0]).schedule = asksRead 0x3F 0 :: [] ∧
    (asksRead 0x3F 0).start = true ∧ decode (asksRead 0x3F 0).code = .ok (.literal 0b11111) := ⟨rfl, rfl, rfl⟩

theorem witness_StepWithoutATransactionKeepsTheCpu :
    (State.start Cpu.reset).schedule = [] ∧
    (let q : Request := { start := false, code := 63, op := .write, wdata := 9 }
     (withSchedule Cpu.reset [q]).schedule = q :: [] ∧ q.start = false ∧ q.code < 64) := by decide

/-- 63 is carried and 64 is not. -/
theorem witness_CodeOutOfRangeIsRefusedByName :
    (withSchedule Cpu.reset [asksRead 64 0]).schedule = asksRead 64 0 :: [] ∧ 64 ≤ (asksRead 64 0).code ∧
    rdataOf (step (withSchedule Cpu.reset [asksRead 63 0])) = some 31 := by decide

theorem witness_StepIsTheReadOrWriteFunction :
    (withSchedule Cpu.reset [asksWrite 0 9]).schedule = asksWrite 0 9 :: [] ∧ (asksWrite 0 9).start = true ∧
    (asksWrite 0 9).code < 64 ∧ (asksWrite 0 9).op = .write ∧ (asksRead 63 0).op = .read := by decide

/-- Each of the three ways SP moves. -/
theorem witness_SpMovesOnlyByPopPushAndItsWrite :
    ([asksRead 0x18 0, asksRead 0x1A 0, asksWrite 0x1B 7].map fun q =>
      cpuOf Cpu.sp (step (withSchedule Cpu.reset [q]))) = [some 1, some 0xFFFF, some 7] := by decide

theorem witness_PcChangesOnlyByWriteOfCode1C :
    cpuOf Cpu.pc (step (withSchedule Cpu.reset [asksWrite 0x1C 7])) = some 7 ∧ Cpu.reset.pc ≠ 7 := by decide

theorem witness_OverflowChangesOnlyByWriteOfCode1D :
    cpuOf Cpu.o (step (withSchedule Cpu.reset [asksWrite 0x1D 7])) = some 7 ∧ Cpu.reset.o ≠ 7 := by decide

theorem witness_RegisterChangesOnlyByWriteOfItsCode :
    cpuOf (fun c => c.x[(7 : Fin 8)]) (step (withSchedule Cpu.reset [asksWrite 0x07 9])) = some 9 ∧
    Cpu.reset.x[(7 : Fin 8)] ≠ 9 := by decide

/-- Each of the three kinds of destination. -/
theorem witness_CellChangesOnlyAsAWritesDestination :
    ([0x08, 0x10, 0x1E].map fun n =>
      cpuOf (fun c => c.mem.read 0) (step (withSchedule Cpu.reset [asksWrite n 9]))) = [some 9, some 9, some 9] ∧
    Cpu.reset.mem.read 0 ≠ 9 := by decide

/-- POP and PUSH at the ends, and their neighbours. -/
theorem witness_ReadHasSideEffectsForPopAndPushAlone :
    decode 0x17 = .ok (.indRegNext 7) ∧ decode 0x18 = .ok .pop ∧ decode 0x19 = .ok .peek ∧
    decode 0x1A = .ok .push ∧ decode 0x1B = .ok .sp ∧
    (resultOf (exec .pop (onRead Cpu.reset))).isSome = true := ⟨rfl, rfl, rfl, rfl, rfl, rfl⟩

/-- The ends of the read-only ranges of R107 and their neighbours. -/
theorem witness_WriteIsANoOpForExactlyTheReadOnlyCodes :
    ([0x17, 0x18, 0x1A, 0x1B, 0x1E, 0x1F, 0x20, 0x3F].map fun n =>
      cpuOf (fun c => decide (c = Cpu.reset)) (step (withSchedule Cpu.reset [asksWrite n 9]))) =
      [some false, some true, some true, some false, some false, some true, some true, some true] := by decide

theorem witness_TransactionsAreDeterminedByCpuAndRequest :
    (withSchedule Cpu.reset [asksRead 0x18 0]).cpu = ({ withSchedule Cpu.reset [asksRead 0x18 0, asksRead 0 0] with
      freeCount := 5, rdata := 9 }).cpu ∧
    (resultOf (step (withSchedule Cpu.reset [asksRead 0x18 0]))).isSome = true := by decide

/-- Two CPU states that differ only where READ of PEEK does not reach. -/
theorem witness_TransactionsDependOnlyOnWhatTheyReach :
    (resultOf (exec .peek (onRead (cpuWith 3 1 1 0 1 [])))).map State.activity =
      some [.getStackPointer, .readFrom 3] ∧
    AgreesOn .getStackPointer (cpuWith 3 1 1 0 1 []) (cpuWith 3 2 2 1 2 [(4, 4)]) ∧
    AgreesOn (.readFrom 3) (cpuWith 3 1 1 0 1 []) (cpuWith 3 2 2 1 2 [(4, 4)]) ∧
    (onRead (cpuWith 3 1 1 0 1 [])).inp = (onRead (cpuWith 3 2 2 1 2 [(4, 4)])).inp :=
  ⟨by decide, rfl, by show _ = _; decide, rfl⟩

/-- The codes at the ends of the rows of R54. -/
theorem witness_MemoryAccessesFollowTheTable :
    ([0x07, 0x08, 0x0F, 0x10, 0x17, 0x18, 0x1A, 0x1B, 0x1D, 0x1E, 0x1F, 0x20].map fun n =>
      (resultOf (step (withSchedule Cpu.reset [asksWrite n 9]))).map fun t => memoryAccesses t.activity) =
      [some [], some [.write], some [.write], some [.read, .write], some [.read, .write], some [], some [], some [],
       some [], some [.read, .write], some [], some []] := by decide

theorem witness_CanonicalMemoriesThatReadAlikeAreEqual :
    Memory.wf [(0, 1), (65535, 2)] ∧ ¬ Memory.wf [(5, 0)] ∧ ¬ Memory.wf [(5, 1), (3, 1)] ∧ ¬ Memory.wf [(65536, 1)] := by
  decide

/-- A store of what an unlisted Word reads as unlists the cell. -/
theorem witness_StepKeepsMemoryCanonical :
    (withSchedule (cpuWith 0 0 0 0 5 [(5, 1)]) [asksWrite 0x08 0]).cpu.mem.wf ∧
    cpuOf Cpu.mem (step (withSchedule (cpuWith 0 0 0 0 5 [(5, 1)]) [asksWrite 0x08 0])) = some [] := by decide

theorem witness_EveryAdmittedScheduleRunsToItsEnd :
    (withSchedule Cpu.reset [asksRead 0 0, asksWrite 63 1]).Admitted := by
  unfold State.Admitted; decide

theorem witness_PeekNeverMovesTheStackPointer :
    ∀ q ∈ (withSchedule Cpu.reset [asksRead 0x19 0, asksWrite 0x19 1]).schedule, q.code = 0x19 := by decide

theorem witness_ReadsNeverMoveTheNextWord :
    ∀ q ∈ (withSchedule Cpu.reset [asksRead 0x1A 0, asksRead 63 1]).schedule, q.code < 64 ∧ q.op = .read := by decide

theorem witness_PushThenPopRestoresTheStackPointer :
    (withSchedule Cpu.reset [asksRead 0x1A 0, asksRead 0x18 0]).schedule = asksRead 0x1A 0 :: asksRead 0x18 0 :: [] := by
  decide

/-- The ends of both ranges. -/
theorem witness_WriteIsVisibleToTheNextReadOfTheCode :
    ∀ n ∈ [0x00, 0x0F, 0x1B, 0x1D], (n ≤ 0x0F ∨ (0x1B ≤ n ∧ n ≤ 0x1D)) ∧
      (withSchedule Cpu.reset [asksWrite n 7, asksRead n 0]).schedule = asksWrite n 7 :: asksRead n 0 :: [] := by decide

theorem witness_WriteOfARegisterMovesItsIndirectOperands :
    (withSchedule Cpu.reset [asksWrite 2 0x1000, asksRead (0x08 + (2 : Fin 8).val) 0]).schedule =
      asksWrite (2 : Fin 8).val 0x1000 :: asksRead (0x08 + (2 : Fin 8).val) 0 :: [] ∧
    (withSchedule Cpu.reset [asksWrite 2 0x1000, asksRead (0x10 + (2 : Fin 8).val) 0]).schedule =
      asksWrite (2 : Fin 8).val 0x1000 :: asksRead (0x10 + (2 : Fin 8).val) 0 :: [] := by decide

theorem witness_SpIsOneRegisterAndTheOrderOfDecodesShows :
    (withSchedule Cpu.reset [asksWrite 0x1B 0, asksRead 0x1A 0]).schedule = asksWrite 0x1B 0 :: asksRead 0x1A 0 :: [] ∧
    (withSchedule Cpu.reset [asksRead 0x18 0, asksRead 0x1B 0]).schedule = asksRead 0x18 0 :: asksRead 0x1B 0 :: [] ∧
    (withSchedule Cpu.reset [asksRead 0x1A 0, asksRead 0x1B 0]).schedule = asksRead 0x1A 0 :: asksRead 0x1B 0 :: [] ∧
    (withSchedule Cpu.reset [asksRead 0x1B 0, asksRead 0x1A 0]).schedule = asksRead 0x1B 0 :: asksRead 0x1A 0 :: [] := by
  decide

/-- V-NW-8, V-NW-9: the start state. -/
theorem witness_NextWordAtItsOwnAddressIsReplaced :
    nextWordOf (cpuWith 0 0x0200 0 0 0 [(0x0201, 0x0201)]) = (cpuWith 0 0x0200 0 0 0 [(0x0201, 0x0201)]).pc + 1 ∧
    (withSchedule (cpuWith 0 0x0200 0 0 0 [(0x0201, 0x0201)]) [asksRead 0x1E 0]).schedule = asksRead 0x1E 0 :: [] ∧
    ∀ n ∈ [0x1E, 0x1F], (withSchedule (cpuWith 0 0x0200 0 0 0 [(0x0201, 0x0201)])
      [asksWrite 0x1E 0x0BAD, asksRead n 0]).schedule = asksWrite 0x1E 0x0BAD :: asksRead n 0 :: [] := by decide

/-- V-IR-4: the start state; and the same for the two other kinds of destination. -/
theorem witness_StoreToTheNextWordIsSeenAtOnce :
    decode 0x0B = .ok (.indReg 3) ∧
    destination (.indReg 3) (cpuWith 0 0x0100 0 3 0x0101 []) = some ((cpuWith 0 0x0100 0 3 0x0101 []).pc + 1) ∧
    destination (.indRegNext 3) (cpuWith 0 0x0100 0 3 0x0101 []) = some ((cpuWith 0 0x0100 0 3 0x0101 []).pc + 1) ∧
    destination .indNext (cpuWith 0 0x0200 0 0 0 [(0x0201, 0x0201)]) =
      some ((cpuWith 0 0x0200 0 0 0 [(0x0201, 0x0201)]).pc + 1) ∧
    (withSchedule (cpuWith 0 0x0100 0 3 0x0101 []) [asksWrite 0x0B 0x42, asksRead 0x1F 0]).schedule =
      asksWrite 0x0B 0x42 :: asksRead 0x1F 0 :: [] :=
  ⟨rfl, by decide, by decide, by decide, rfl⟩

theorem witness_WriteUsesTheAddressOfItsOwnTime :
    (withSchedule Cpu.reset [asksRead (0x08 + (7 : Fin 8).val) 0, asksWrite (7 : Fin 8).val 0xFFFF,
      asksWrite (0x08 + (7 : Fin 8).val) 1]).schedule =
      asksRead (0x08 + (7 : Fin 8).val) 0 :: asksWrite (7 : Fin 8).val 0xFFFF ::
        asksWrite (0x08 + (7 : Fin 8).val) 1 :: [] := by decide

/-! ### From reset -/

/-- With nothing placed, a step from reset is an idle one (notes/assumptions/2.md, 13.md). -/
theorem test_reset_idles : cpuOf id (step State.reset) = some Cpu.reset := by decide

/-- With a code placed, the very next step runs it (notes/assumptions/13.md): READ of PUSH from SP 0x0000 (R146). -/
theorem test_fetch_word_runs_first : cpuOf Cpu.sp (step (State.reset.withFetchWord 8 0b011010)) = some 0xFFFF := by decide

/-- The same for all 64 codes: the step after reset runs the placed code and goes on (R200). -/
theorem test_every_placed_code_runs : ∀ c : BitVec 6,
    (resultOf (step (State.reset.withFetchWord 8 c.toNat))).map (fun t => t.inp.code) = some c := by decide

end Sys2Proof.Tests
end

