-- ==== Sys2Proof/Proofs/Memory.lean ====
section
/-! Memory as a wrapping array (20_memory.md R50): what a read returns, and what it returns after a write. -/

namespace Sys2Proof.Machine

/-- Every key after a write, in the two ways a write stores: unlisting the cell, and listing the new Word. -/
theorem Memory.lookup_write (m : Memory) (a j : Nat) (v : Word) :
    (m.write a v).lookup j = if j = a % Config.memWords then v else m.lookup j := by
  unfold write
  by_cases hv : v = Config.unlistedWord
  · rw [if_pos hv, lookup_unlist, hv]
  · rw [if_neg hv]
    by_cases hj : j = a % Config.memWords
    · subst hj
      rw [if_pos rfl, lookup_enlist_self _ _ _ fun c hc => (mem_unlist.mp hc).2]
    · rw [lookup_enlist_other _ _ _ _ hj, lookup_unlist, if_neg hj, if_neg hj]

/-- Addresses wrap (R50). -/
@[simp] theorem Memory.read_mod (m : Memory) (a : Nat) : m.read (a % Config.memWords) = m.read a := by
  simp only [read, Nat.mod_mod]

/-- A write changes one cell, the one at its address modulo 65536 (R50, R51). -/
theorem Memory.read_write (m : Memory) (a b : Nat) (v : Word) :
    (m.write a v).read b = if b % Config.memWords = a % Config.memWords then v else m.read b :=
  lookup_write m a (b % Config.memWords) v

@[simp] theorem Memory.read_write_same (m : Memory) (a : Nat) (v : Word) : (m.write a v).read a = v := by
  rw [read_write, if_pos rfl]

theorem Memory.read_write_other (m : Memory) {a b : Nat} (v : Word)
    (h : b % Config.memWords ≠ a % Config.memWords) : (m.write a v).read b = m.read b := by
  rw [read_write, if_neg h]

/-- Settles O43: a read wraps its address, and a write changes the one cell at its address modulo 65536. -/
theorem memoryIsAWrappingArray : Obligations.MemoryIsAWrappingArray := fun m a b v =>
  ⟨(m.read_mod a).symm, m.read_write a b v⟩

end Sys2Proof.Machine
end

