-- ==== Sys2Proof/Proofs/Transactions.lean ====
section
/-! Transactions as functions of the CPU state and the request (40_transactions.md R111): what a step does with the
first request of the schedule, and that nothing else of the model's state reaches its result. -/

namespace Sys2Proof.Machine

/-- The first request of the schedule goes to the boundary. -/
theorem step_of_schedule {s : State} {q : Request} {rest : List Request} (h : s.schedule = q :: rest) :
    step s = issue q { s with schedule := rest } := by
  simp only [step, takeRequest, h]

/-- Without `start` a request that passes the boundary makes an idle step. -/
theorem issue_without_start {q : Request} (hcode : q.code < Config.codeCount) (hstart : q.start = false) (s : State) :
    issue q s = .next (s.present q).idle := by
  simp [issue, decode_inRange hcode, hstart]

/-- With `start` a request that passes the boundary runs the mode of its code. -/
theorem issue_with_start {q : Request} (hcode : q.code < Config.codeCount) (hstart : q.start = true) (s : State) :
    issue q s = exec (decodeCode (BitVec.ofNat 6 q.code)) (s.present q) := by
  simp [issue, decode_inRange hcode, hstart]

/-- A mode's transaction sees the CPU state, `op` and `wdata` alone: `rdata`, the last step's calls, the requests
still to come and the counter of free values do not reach its result. -/
theorem exec_determined {i : Instr} {s s' t : State} (h : exec i s = .next t) (hcpu : s.cpu = s'.cpu)
    (hop : s.inp.op = s'.inp.op) (hwdata : s.inp.wdata = s'.inp.wdata) :
    ∃ t', exec i s' = .next t' ∧ t.cpu = t'.cpu ∧ t.activity = t'.activity ∧
      (s.inp.op = .read → t.rdata = t'.rdata) := by
  rw [exec_eq_transact i s']
  obtain ⟨hread, rfl⟩ | ⟨hwrite, rfl⟩ := exec_cases h
  · exact ⟨_, transact_read (hop ▸ hread) _ _, by simp [hcpu]⟩
  · exact ⟨_, transact_write (hop ▸ hwrite) _ _, by simp [hcpu, hwdata, hwrite]⟩

/-- Settles O40: both states put the same request on their ports, so both idle or both run the same transaction. -/
theorem transactionsAreDeterminedByCpuAndRequest : Obligations.TransactionsAreDeterminedByCpuAndRequest := by
  intro s s' t q rest rest' hs hs' hcpu h
  rw [step_of_schedule hs']
  obtain ⟨hnil, -⟩ | ⟨q₀, rest₀, i, hq, hcode, rfl, hcase⟩ := step_cases h
  · simp [hs] at hnil
  · obtain ⟨rfl, rfl⟩ : q = q₀ ∧ rest = rest₀ := List.cons.inj (hs.symm.trans hq)
    obtain ⟨hstart, rfl⟩ | ⟨hstart, hexec⟩ := hcase
    · exact ⟨_, issue_without_start hcode hstart _, by simp [hcpu, hstart]⟩
    · rw [issue_with_start hcode hstart]
      obtain ⟨t', ht', hcpu', hactivity, hrdata⟩ :=
        exec_determined (s' := State.present { s' with schedule := rest' } q) hexec hcpu rfl rfl
      exact ⟨t', ht', hcpu', hactivity, fun _ => hrdata⟩

end Sys2Proof.Machine
end

