-- ==== Sys2Proof/Proofs/ModeTransactions.lean ====
section
/-! What every mode's READ and WRITE share (40_transactions.md R110): the code of a mode decodes to it, and `exec`
answers what the mode's rule computes, with the input ports and the pending requests kept. -/

namespace Sys2Proof.Machine

open Sys2Proof.Statement

/-! ### The code of a mode -/

theorem decodeCode_encode (i : Instr) : decodeCode (encode i) = i := by
  cases i with
  | reg r => exact Laws.CodeRoundTrip.reg r
  | indReg r => exact Laws.CodeRoundTrip.indReg r
  | indRegNext r => exact Laws.CodeRoundTrip.indRegNext r
  | pop => exact Laws.CodeRoundTrip.pop
  | peek => exact Laws.CodeRoundTrip.peek
  | push => exact Laws.CodeRoundTrip.push
  | sp => exact Laws.CodeRoundTrip.sp
  | pc => exact Laws.CodeRoundTrip.pc
  | o => exact Laws.CodeRoundTrip.o
  | indNext => exact Laws.CodeRoundTrip.indNext
  | next => exact Laws.CodeRoundTrip.next
  | literal lit => exact Laws.CodeRoundTrip.literal lit

/-- The boundary takes the number of a mode's code to the mode. -/
theorem decode_encode (i : Instr) : decode (encode i).toNat = .ok i := by
  rw [decode_inRange (encode i).isLt, BitVec.ofNat_toNat, BitVec.setWidth_eq, decodeCode_encode]

/-! ### One transaction -/

theorem exec_read {i : Instr} {s : State} (hop : s.inp.op = .read) :
    exec i s = .next (s.afterRead (readMode i)) := by
  rw [exec_eq_transact, transact_read hop]

theorem exec_write {i : Instr} {s : State} (hop : s.inp.op = .write) :
    exec i s = .next (s.afterWrite (writeMode i)) := by
  rw [exec_eq_transact, transact_write hop]

/-- A READ delivers the value its mode's rule computes from the CPU state, and leaves the CPU state the rule
leaves. -/
theorem exec_read_of_eq {i : Instr} {s : State} {v : Word} {c : Cpu} {log : List Access} (hop : s.inp.op = .read)
    (hrule : readMode i ⟨s.cpu, []⟩ = (v, ⟨c, log⟩)) :
    ∃ t, exec i s = .next t ∧ t.rdata = v ∧ t.cpu = c ∧ PortsKept s t :=
  ⟨_, exec_read hop, by simp [hrule], by simp [hrule], rfl, rfl⟩

/-- A WRITE leaves the CPU state its mode's rule makes of `wdata` and the CPU state. -/
theorem exec_write_of_eq {i : Instr} {s : State} {c : Cpu} {log : List Access} (hop : s.inp.op = .write)
    (hrule : writeMode i s.inp.wdata ⟨s.cpu, []⟩ = ⟨c, log⟩) :
    ∃ t, exec i s = .next t ∧ t.cpu = c ∧ PortsKept s t :=
  ⟨_, exec_write hop, by simp [hrule], rfl, rfl⟩

/-- The next READ delivers what the mode's rule computes from the CPU state. -/
theorem nextReadDelivers_of_eq {i : Instr} {t : State} {v : Word} (hrule : (readMode i ⟨t.cpu, []⟩).1 = v) :
    NextReadDelivers i t v :=
  ⟨_, exec_read rfl, hrule⟩

/-- A memory write changes one cell and no register. -/
theorem storesOnly_write (c : Cpu) (a v : Word) :
    StoresOnly c { c with mem := c.mem.write a.toNat v } a v := by
  have ha : a.toNat % Config.memWords = a.toNat := Nat.mod_eq_of_lt a.isLt
  exact ⟨⟨fun _ => rfl, rfl, rfl, rfl⟩, fun n => by rw [Memory.read_write, ha]⟩

end Sys2Proof.Machine
end

