-- ==== Sys2Proof/Proofs/RegisterModes.lean ====
section
/-! The register modes, codes 0x00..0x17 (41_register_modes.md R120 to R126): what one READ and one WRITE of each
delivers, changes and keeps. -/

namespace Sys2Proof.Machine

open Sys2Proof.Statement

/-! ### The codes (R71, format G) -/

theorem encode_reg_toNat (r : Fin 8) : (encode (.reg r)).toNat = r.val := by
  revert r; decide

theorem encode_indReg_toNat (r : Fin 8) : (encode (.indReg r)).toNat = 0x08 + r.val := by
  revert r; decide

theorem encode_indRegNext_toNat (r : Fin 8) : (encode (.indRegNext r)).toNat = 0x10 + r.val := by
  revert r; decide

theorem decode_reg (r : Fin 8) : decode r.val = .ok (.reg r) := by
  rw [← encode_reg_toNat, decode_encode]

theorem decode_indReg (r : Fin 8) : decode (0x08 + r.val) = .ok (.indReg r) := by
  rw [← encode_indReg_toNat, decode_encode]

theorem decode_indRegNext (r : Fin 8) : decode (0x10 + r.val) = .ok (.indRegNext r) := by
  rw [← encode_indRegNext_toNat, decode_encode]

/-! ### Direct register -/

theorem readReg_eq (r : Fin 8) (t : Tx) : readReg r t = (t.cpu.x[r], ⟨t.cpu, t.log ++ [.register r]⟩) := rfl

theorem writeReg_eq (r : Fin 8) (v : Word) (t : Tx) :
    writeReg r v t = ⟨{ t.cpu with x := t.cpu.x.set r v }, t.log ++ [.setRegister r v]⟩ := rfl

/-- The register file after a register is set: that one holds the Word, every other one its own. -/
theorem getElem_setRegister (x : Vector Word 8) (r j : Fin 8) (v : Word) :
    (x.set r v)[j] = if j = r then v else x[j] := by
  simp only [Fin.getElem_fin, Vector.getElem_set, Fin.ext_iff, eq_comm]

/-- Settles O5: the READ's rule is the register read. -/
theorem readOfARegisterDeliversIt : Obligations.ReadOfARegisterDeliversIt := fun r _ hop =>
  ⟨decode_reg r, exec_read_of_eq hop (readReg_eq r _)⟩

/-- Settles O6: the WRITE's rule sets one element of the register file. -/
theorem writeOfARegisterSetsItAlone : Obligations.WriteOfARegisterSetsItAlone := by
  intro r s hop
  obtain ⟨t, ht, hcpu, hports⟩ := exec_write_of_eq (i := .reg r) hop (writeReg_eq r _ _)
  have hx (j : Fin 8) : t.cpu.x[j] = if j = r then s.inp.wdata else s.cpu.x[j] := by
    rw [hcpu]; exact getElem_setRegister _ r j _
  have hsame (h : s.cpu.x[r] = s.inp.wdata) : t.cpu = s.cpu := by
    rw [hcpu, ← h, Fin.getElem_fin, Vector.set_getElem_self]
  have hread : NextReadDelivers (.reg r) t s.inp.wdata :=
    nextReadDelivers_of_eq ((hx r).trans (if_pos rfl))
  exact ⟨decode_reg r, t, ht, hx, by rw [hcpu], by rw [hcpu], by rw [hcpu], fun _ => by rw [hcpu], hsame, hread,
    hports⟩

/-! ### Indirect register -/

/-- Settles O7: the READ's rule loads the cell at `x[r]` and keeps the CPU state. -/
theorem readThroughARegisterLoadsItsCell : Obligations.ReadThroughARegisterLoadsItsCell := fun r _ hop =>
  ⟨decode_indReg r, exec_read_of_eq hop (readIndReg_eq r _)⟩

/-- Settles O8: the WRITE's rule stores at `x[r]`, and the register still points there for the next READ. -/
theorem writeThroughARegisterStoresAtItsCell : Obligations.WriteThroughARegisterStoresAtItsCell := by
  intro r s hop
  obtain ⟨t, ht, hcpu, hports⟩ := exec_write_of_eq (i := .indReg r) hop (writeIndReg_eq r _ _)
  have hstores : StoresOnly s.cpu t.cpu s.cpu.x[r] s.inp.wdata := hcpu ▸ storesOnly_write _ _ _
  have hread : NextReadDelivers (.indReg r) t s.inp.wdata :=
    nextReadDelivers_of_eq (by simp [readMode, readIndReg_eq, hcpu])
  exact ⟨decode_indReg r, t, ht, hstores, hread, hports⟩

/-! ### Indirect register plus next word -/

/-- Settles O9: the READ's rule loads the cell at the wrapping sum and keeps the CPU state, PC included. -/
theorem readIndexedByNextWordLoadsTheSumCell : Obligations.ReadIndexedByNextWordLoadsTheSumCell := fun r _ hop =>
  ⟨decode_indRegNext r, exec_read_of_eq hop (readIndRegNext_eq r _)⟩

/-- Settles O10: the WRITE's rule stores at the wrapping sum, taken from the state at the WRITE. -/
theorem writeIndexedByNextWordStoresAtTheSumCell : Obligations.WriteIndexedByNextWordStoresAtTheSumCell := by
  intro r s hop
  obtain ⟨t, ht, hcpu, hports⟩ := exec_write_of_eq (i := .indRegNext r) hop (writeIndRegNext_eq r _ _)
  exact ⟨decode_indRegNext r, t, ht, hcpu ▸ storesOnly_write _ _ _, hports⟩

end Sys2Proof.Machine
end

