-- ==== Sys2Proof/Proofs/StackModes.lean ====
section
/-! The stack modes, codes 0x18..0x1A (42_stack_modes.md R140 to R147): what one READ and one WRITE of each delivers,
changes and keeps. -/

namespace Sys2Proof.Machine

open Sys2Proof.Statement

/-! ### The codes (R71, format S) -/

theorem decode_pop : decode 0x18 = .ok .pop := decode_encode .pop

theorem decode_peek : decode 0x19 = .ok .peek := decode_encode .peek

theorem decode_push : decode 0x1A = .ok .push := decode_encode .push

/-! ### The WRITE rules: no stack mode stores (C2, C4) -/

@[simp] theorem writePop_eq (v : Word) (t : Tx) : writePop v t = t := rfl

@[simp] theorem writePeek_eq (v : Word) (t : Tx) : writePeek v t = t := rfl

@[simp] theorem writePush_eq (v : Word) (t : Tx) : writePush v t = t := rfl

/-! ### POP -/

/-- Settles O11: the READ's rule loads the cell at the old SP and increments SP. -/
theorem readOfPopLoadsThenIncrements : Obligations.ReadOfPopLoadsThenIncrements := fun _ hop =>
  ⟨decode_pop, exec_read_of_eq hop (readPop_eq _)⟩

/-- Settles O12: the WRITE's rule returns the transaction it is given. -/
theorem writeOfPopDoesNothing : Obligations.WriteOfPopDoesNothing := fun s hop =>
  ⟨decode_pop, exec_write_of_eq hop (writePop_eq s.inp.wdata _)⟩

/-! ### PEEK -/

/-- Settles O13: the READ's rule loads the cell at SP and keeps the CPU state. -/
theorem readOfPeekLoadsTheTop : Obligations.ReadOfPeekLoadsTheTop := fun _ hop =>
  ⟨decode_peek, exec_read_of_eq hop (readPeek_eq _)⟩

/-- Settles O14: the WRITE's rule returns the transaction it is given, whatever the value. -/
theorem writeOfPeekDoesNothing : Obligations.WriteOfPeekDoesNothing := fun s hop =>
  ⟨decode_peek, exec_write_of_eq hop (writePeek_eq s.inp.wdata _)⟩

/-! ### PUSH -/

/-- Settles O15: the READ's rule decrements SP and loads the cell at the new SP. -/
theorem readOfPushDecrementsThenLoads : Obligations.ReadOfPushDecrementsThenLoads := fun _ hop =>
  ⟨decode_push, exec_read_of_eq hop (readPush_eq _)⟩

/-- Settles O16: the WRITE's rule returns the transaction it is given; no slot is reserved. -/
theorem writeOfPushDoesNothing : Obligations.WriteOfPushDoesNothing := fun s hop =>
  ⟨decode_push, exec_write_of_eq hop (writePush_eq s.inp.wdata _)⟩

end Sys2Proof.Machine
end

