-- ==== Sys2Proof/Proofs/StateChanges.lean ====
section
/-! What a transaction can change of the CPU state (40_transactions.md R107 to R109), said once over all modes;
and which request a step that changed it has run. -/

namespace Sys2Proof.Machine

/-! ### The rules of the modes -/

/-- A READ can move SP and changes nothing else (R108). -/
theorem readMode_cpu (i : Instr) (t : Tx) :
    (readMode i t).2.cpu = { t.cpu with sp := (readMode i t).2.cpu.sp } := by
  cases i <;> rfl

/-- A WRITE of any other mode than PC keeps PC: no address computation moves it (R165, R185). -/
theorem writeMode_pc {i : Instr} (hi : i ≠ .pc) (v : Word) (t : Tx) : (writeMode i v t).cpu.pc = t.cpu.pc := by
  cases i with
  | pc => exact absurd rfl hi
  | _ => rfl

/-- A WRITE of any other mode than O keeps O (R28). -/
theorem writeMode_o {i : Instr} (hi : i ≠ .o) (v : Word) (t : Tx) : (writeMode i v t).cpu.o = t.cpu.o := by
  cases i with
  | o => exact absurd rfl hi
  | _ => rfl

/-! ### One transaction -/

/-- What a transaction that changed a part of the CPU state other than SP was: a WRITE. -/
theorem exec_write_of_changed {α : Type} {i : Instr} {s t : State} (f : Cpu → α)
    (hf : ∀ (c : Cpu) (v : Word), f { c with sp := v } = f c) (h : exec i s = .next t) (hne : f t.cpu ≠ f s.cpu) :
    s.inp.op = .write ∧ t.cpu = (writeMode i s.inp.wdata ⟨s.cpu, []⟩).cpu := by
  obtain ⟨-, rfl⟩ | ⟨hwrite, rfl⟩ := exec_cases h
  · rw [State.afterRead_cpu, readMode_cpu, hf] at hne
    exact absurd rfl hne
  · exact ⟨hwrite, rfl⟩

/-- PC changes under WRITE of the PC mode alone, and nothing else changes then (R165). -/
theorem exec_pc_changed {i : Instr} {s t : State} (h : exec i s = .next t) (hne : t.cpu.pc ≠ s.cpu.pc) :
    i = .pc ∧ s.inp.op = .write ∧ t.cpu = { s.cpu with pc := s.inp.wdata } := by
  obtain ⟨hwrite, hcpu⟩ := exec_write_of_changed Cpu.pc (fun _ _ => rfl) h hne
  obtain rfl : i = .pc := by_contra fun hi => hne (hcpu ▸ writeMode_pc hi _ _)
  exact ⟨rfl, hwrite, hcpu⟩

/-- O changes under WRITE of the O mode alone, and nothing else changes then (R28, R166). -/
theorem exec_o_changed {i : Instr} {s t : State} (h : exec i s = .next t) (hne : t.cpu.o ≠ s.cpu.o) :
    i = .o ∧ s.inp.op = .write ∧ t.cpu = { s.cpu with o := s.inp.wdata } := by
  obtain ⟨hwrite, hcpu⟩ := exec_write_of_changed Cpu.o (fun _ _ => rfl) h hne
  obtain rfl : i = .o := by_contra fun hi => hne (hcpu ▸ writeMode_o hi _ _)
  exact ⟨rfl, hwrite, hcpu⟩

/-! ### One step -/

theorem encode_decodeCode (c : BitVec 6) : encode (decodeCode c) = c := by
  revert c; decide

/-- A number in range that decodes to a mode is the number of the mode's code. -/
theorem code_of_decodeCode {n : Nat} {i : Instr} (hn : n < Config.codeCount)
    (hi : i = decodeCode (BitVec.ofNat 6 n)) : n = (encode i).toNat := by
  rw [hi, encode_decodeCode, BitVec.toNat_ofNat, Nat.mod_eq_of_lt hn]

/-- A step that changed the CPU state has run the transaction that the caller's next request asks for (R109). -/
theorem step_cpu_changed {s t : State} (h : step s = .next t) (hne : t.cpu ≠ s.cpu) :
    ∃ q rest i, s.schedule = q :: rest ∧ q.start = true ∧ q.code = (encode i).toNat ∧
      exec i ({ s with schedule := rest }.present q) = .next t := by
  obtain ⟨-, rfl⟩ | ⟨q, rest, i, hq, hcode, hi, ⟨-, rfl⟩ | ⟨hstart, hexec⟩⟩ := step_cases h
  · exact absurd rfl hne
  · exact absurd rfl hne
  · exact ⟨q, rest, i, hq, hstart, code_of_decodeCode hcode hi, hexec⟩

end Sys2Proof.Machine
end

