-- ==== Sys2Proof/Proofs/SpecialModes.lean ====
section
/-! The special-register modes, codes 0x1B..0x1D (43_special_register_modes.md R160 to R167): what one READ and one
WRITE of each delivers, changes and keeps, and that PC and O change in no other way. -/

namespace Sys2Proof.Machine

open Sys2Proof.Statement

/-! ### The codes (R71, format S) -/

theorem decode_sp : decode 0x1B = .ok .sp := decode_encode .sp

theorem decode_pc : decode 0x1C = .ok .pc := decode_encode .pc

theorem decode_o : decode 0x1D = .ok .o := decode_encode .o

/-! ### The rules of the modes -/

theorem readSp_eq (t : Tx) : readSp t = (t.cpu.sp, ⟨t.cpu, t.log ++ [.getStackPointer]⟩) := rfl

theorem writeSp_eq (v : Word) (t : Tx) :
    writeSp v t = ⟨{ t.cpu with sp := v }, t.log ++ [.setStackPointer v]⟩ := rfl

theorem readPc_eq (t : Tx) : readPc t = (t.cpu.pc, ⟨t.cpu, t.log ++ [.getProgramCounter]⟩) := rfl

theorem writePc_eq (v : Word) (t : Tx) :
    writePc v t = ⟨{ t.cpu with pc := v }, t.log ++ [.setProgramCounter v]⟩ := rfl

theorem readO_eq (t : Tx) : readO t = (t.cpu.o, ⟨t.cpu, t.log ++ [.getOverflow]⟩) := rfl

theorem writeO_eq (v : Word) (t : Tx) :
    writeO v t = ⟨{ t.cpu with o := v }, t.log ++ [.setOverflow v]⟩ := rfl

/-! ### SP -/

/-- Settles O17: the READ's rule returns SP and keeps the CPU state. -/
theorem readOfSpDeliversIt : Obligations.ReadOfSpDeliversIt := fun _ hop =>
  ⟨decode_sp, exec_read_of_eq hop (readSp_eq _)⟩

/-- Settles O18: the WRITE's rule sets SP, and the next READ of PEEK loads the cell at it. -/
theorem writeOfSpSetsItAlone : Obligations.WriteOfSpSetsItAlone := by
  intro s hop
  obtain ⟨t, ht, hcpu, hports⟩ := exec_write_of_eq (i := .sp) hop (writeSp_eq _ _)
  have hpeek : NextReadDelivers .peek t (s.cpu.mem.read s.inp.wdata.toNat) :=
    nextReadDelivers_of_eq (by simp [readMode, readPeek_eq, hcpu])
  exact ⟨decode_sp, t, ht, hcpu, hpeek, hports⟩

/-! ### PC -/

/-- Settles O19: the READ's rule returns PC and keeps the CPU state. -/
theorem readOfPcDeliversIt : Obligations.ReadOfPcDeliversIt := fun _ hop =>
  ⟨decode_pc, exec_read_of_eq hop (readPc_eq _)⟩

/-- Settles O20: the WRITE's rule sets PC, and the next READ of the next word loads the cell after it. -/
theorem writeOfPcSetsItAlone : Obligations.WriteOfPcSetsItAlone := by
  intro s hop
  obtain ⟨t, ht, hcpu, hports⟩ := exec_write_of_eq (i := .pc) hop (writePc_eq _ _)
  have hnext : NextReadDelivers .next t (s.cpu.mem.read (s.inp.wdata + 1).toNat) :=
    nextReadDelivers_of_eq (by simp [readMode, readNext, nextWord_eq, hcpu])
  exact ⟨decode_pc, t, ht, hcpu, hnext, hports⟩

/-- Settles O34: a step that changes PC has run a transaction, and the only transaction that changes PC is the WRITE of
the PC mode, whose code is 0x1C. -/
theorem pcChangesOnlyByWriteOfCode1C : Obligations.PcChangesOnlyByWriteOfCode1C := by
  intro s t h hne
  obtain ⟨q, rest, i, hq, hstart, hcode, hexec⟩ := step_cpu_changed h fun heq => hne (congrArg Cpu.pc heq)
  obtain ⟨rfl, hop, hcpu⟩ := exec_pc_changed hexec hne
  exact ⟨q, rest, hq, hstart, hop, hcode, hcpu⟩

/-! ### O -/

/-- Settles O21: the READ's rule returns O and keeps the CPU state; O changes under the O mode's WRITE alone. -/
theorem readOfOverflowDeliversTheWholeWord : Obligations.ReadOfOverflowDeliversTheWholeWord := by
  refine ⟨fun _ hop => ⟨decode_o, exec_read_of_eq hop (readO_eq _)⟩, fun i s t h hne => ?_⟩
  obtain ⟨hi, hop, -⟩ := exec_o_changed h hne
  exact ⟨hi, hop⟩

/-- Settles O22: the WRITE's rule sets O to the whole Word, and the next READ of O returns it. -/
theorem writeOfOverflowSetsTheWholeWordAlone : Obligations.WriteOfOverflowSetsTheWholeWordAlone := by
  intro s hop
  obtain ⟨t, ht, hcpu, hports⟩ := exec_write_of_eq (i := .o) hop (writeO_eq _ _)
  have hread : NextReadDelivers .o t s.inp.wdata :=
    nextReadDelivers_of_eq (by simp [readMode, readO_eq, hcpu])
  exact ⟨decode_o, t, ht, hcpu, hread, hports⟩

end Sys2Proof.Machine
end

