-- ==== Sys2Proof/Proofs/NextWordModes.lean ====
section
/-! The next-word and literal modes, codes 0x1E..0x3F (44_next_word_and_literal_modes.md R180 to R187): what one READ
and one WRITE of each delivers, changes and keeps. -/

namespace Sys2Proof.Machine

open Sys2Proof.Statement

/-! ### The codes (R71, formats S and L) -/

theorem decode_indNext : decode 0x1E = .ok .indNext := decode_encode .indNext

theorem decode_next : decode 0x1F = .ok .next := decode_encode .next

theorem encode_literal_toNat (lit : BitVec 5) : (encode (.literal lit)).toNat = 0x20 + lit.toNat := by
  revert lit; decide

theorem decode_literal (lit : BitVec 5) : decode (0x20 + lit.toNat) = .ok (.literal lit) := by
  rw [← encode_literal_toNat, decode_encode]

/-! ### The rules of the immediate modes: no WRITE stores (R184, R187), and a literal reaches no state (R186) -/

theorem readNext_eq (t : Tx) :
    readNext t = (t.cpu.mem.read (t.cpu.pc + 1).toNat,
      ⟨t.cpu, t.log ++ [.getNextProgramCounter, .readFrom (t.cpu.pc + 1)]⟩) :=
  nextWord_eq t

@[simp] theorem writeNext_eq (v : Word) (t : Tx) : writeNext v t = t := rfl

@[simp] theorem readLiteral_eq (lit : BitVec 5) (t : Tx) : readLiteral lit t = (zext16 lit, t) := rfl

@[simp] theorem writeLiteral_eq (lit : BitVec 5) (v : Word) (t : Tx) : writeLiteral lit v t = t := rfl

/-! ### Next word indirect -/

/-- Settles O23: the READ's rule loads the cell at the next word and keeps the CPU state, PC included. -/
theorem readNextWordIndirectLoadsItsCell : Obligations.ReadNextWordIndirectLoadsItsCell := fun _ hop =>
  ⟨decode_indNext, exec_read_of_eq hop (readIndNext_eq _)⟩

/-- Settles O24: the WRITE's rule stores at the next word, taken from the state at the WRITE. -/
theorem writeNextWordIndirectStoresAtItsCell : Obligations.WriteNextWordIndirectStoresAtItsCell := by
  intro s hop
  obtain ⟨t, ht, hcpu, hports⟩ := exec_write_of_eq (i := .indNext) hop (writeIndNext_eq _ _)
  exact ⟨decode_indNext, t, ht, hcpu ▸ storesOnly_write _ _ _, hports⟩

/-! ### Next word immediate -/

/-- Settles O25: the READ's rule loads the cell after PC, wrapping, and keeps the CPU state, PC included. -/
theorem readNextWordDeliversIt : Obligations.ReadNextWordDeliversIt := fun _ hop =>
  ⟨decode_next, exec_read_of_eq hop (readNext_eq _)⟩

/-- Settles O26: the WRITE's rule returns the transaction it is given, so the next word is not written. -/
theorem writeNextWordDoesNothing : Obligations.WriteNextWordDoesNothing := fun s hop =>
  ⟨decode_next, exec_write_of_eq hop (writeNext_eq s.inp.wdata _)⟩

/-! ### Literal -/

/-- Settles O27: the READ's rule returns the zero-extended literal with the transaction it is given, so no call is
noted. -/
theorem readOfALiteralDeliversCodeMinus0x20 : Obligations.ReadOfALiteralDeliversCodeMinus0x20 := by
  intro lit s hop
  have hrule : readMode (.literal lit) ⟨s.cpu, []⟩ = (zext16 lit, ⟨s.cpu, []⟩) := readLiteral_eq lit _
  have hvalue : (zext16 lit).toNat = lit.toNat := BitVec.toNat_setWidth_of_le (by decide)
  exact ⟨decode_literal lit, _, exec_read hop, by rw [State.afterRead_rdata, hrule, hvalue], by simp [hrule],
    by simp [hrule], rfl, rfl⟩

/-- Settles O28: the WRITE's rule returns the transaction it is given, and the next READ zero-extends the same
literal. -/
theorem writeOfALiteralDoesNothing : Obligations.WriteOfALiteralDoesNothing := by
  intro lit s hop
  have hrule : writeMode (.literal lit) s.inp.wdata ⟨s.cpu, []⟩ = ⟨s.cpu, []⟩ :=
    writeLiteral_eq lit s.inp.wdata _
  have hread (t : State) : NextReadDelivers (.literal lit) t (BitVec.ofNat 16 lit.toNat) :=
    nextReadDelivers_of_eq (by simp [readMode])
  exact ⟨decode_literal lit, _, exec_write hop, by simp [hrule], by simp [hrule], hread _, rfl, rfl⟩

end Sys2Proof.Machine
end

