-- ==== Sys2Proof/Proofs/Encoding.lean ====
section
/-! The operand codes (30_encoding.md R75 to R81): each code has one mode, and the `size` and `tag` outputs tell what
the table says of its row. -/

namespace Sys2Proof.Machine

/-! ### Codes and modes -/

/-- Decode and encode agree: a number decodes to the one mode whose code it is. -/
theorem decode_eq_ok_iff {n : Nat} {i : Instr} : decode n = .ok i ↔ n = (encode i).toNat := by
  constructor
  · intro h
    obtain ⟨hn, hi⟩ := decode_ok h
    exact code_of_decodeCode hn hi
  · rintro rfl
    exact decode_encode i

theorem exists_decode_iff {n : Nat} : n < Config.codeCount ↔ ∃ i, decode n = .ok i :=
  ⟨fun h => ⟨_, decode_inRange h⟩, fun ⟨_, h⟩ => (decode_ok h).1⟩

/-- Every transaction of every mode completes (R200). -/
theorem exec_completes (i : Instr) (s : State) : ∃ t, exec i s = .next t ∧ Statement.PortsKept s t := by
  cases hop : s.inp.op with
  | read => exact ⟨_, exec_read hop, rfl, rfl⟩
  | write => exact ⟨_, exec_write hop, rfl, rfl⟩

/-- A READ that goes on is the one state `exec` answers for it. -/
theorem eq_afterRead {i : Instr} {s t : State} (hop : s.inp.op = .read) (h : exec i s = .next t) :
    t = s.afterRead (readMode i) :=
  Host.Outcome.next.inj (h.symm.trans (exec_read hop))

/-- A WRITE that goes on is the one state `exec` answers for it. -/
theorem eq_afterWrite {i : Instr} {s t : State} (hop : s.inp.op = .write) (h : exec i s = .next t) :
    t = s.afterWrite (writeMode i) :=
  Host.Outcome.next.inj (h.symm.trans (exec_write hop))

/-- Settles O1: `decode` inverts `encode` on 0..63 and is defined nowhere else, and each transaction completes. -/
theorem everyCodeHasExactlyOneMode : Obligations.EveryCodeHasExactlyOneMode :=
  ⟨fun _ => exists_decode_iff, fun _ _ => decode_eq_ok_iff,
    fun i s => (exec_completes i s).imp fun _ => And.left⟩

/-- Settles O2: each of the thirteen numbers is the number of its mode's code. -/
theorem spelledOutCodesDecode : Obligations.SpelledOutCodesDecode :=
  ⟨decode_reg 3, decode_indReg 2, decode_indRegNext 7, decode_pop, decode_peek, decode_push, decode_sp, decode_pc,
    decode_o, decode_indNext, decode_next, decode_literal 0b01010#5, decode_literal 0b11111#5⟩

/-! ### The outputs that follow the code -/

/-- A step that goes on has put the code of its request, which is in range, on the `code` port. -/
theorem step_code {s t : State} {q : Request} {rest : List Request} (hs : s.schedule = q :: rest)
    (h : step s = .next t) : q.code < Config.codeCount ∧ t.inp.code = BitVec.ofNat 6 q.code := by
  obtain ⟨hnil, -⟩ | ⟨q₀, rest₀, i, hq, hcode, -, hcase⟩ := step_cases h
  · simp [hs] at hnil
  · obtain ⟨rfl, rfl⟩ : q = q₀ ∧ rest = rest₀ := List.cons.inj (hs.symm.trans hq)
    refine ⟨hcode, ?_⟩
    obtain ⟨-, rfl⟩ | ⟨-, hexec⟩ := hcase
    · rfl
    · obtain ⟨t', ht', hinp, -⟩ := exec_completes i (State.present { s with schedule := rest } q)
      obtain rfl : t' = t := Host.Outcome.next.inj (ht'.symm.trans hexec)
      rw [hinp, State.present_code]

/-- The codes that take a next word (R76). -/
theorem size_eq_one_iff (c : BitVec 6) :
    SIZE c = 1 ↔ (0x10 ≤ c.toNat ∧ c.toNat ≤ 0x17) ∨ c.toNat = 0x1E ∨ c.toNat = 0x1F := by
  revert c; decide

/-- Settles O3: the `size` output is SIZE of the code on the port, and SIZE is 1 for those codes alone. -/
theorem sizeOutputMarksTheNextWordCodes : Obligations.SizeOutputMarksTheNextWordCodes := by
  intro s t q rest hs h
  obtain ⟨hcode, hport⟩ := step_code hs h
  have htoNat : (BitVec.ofNat 6 q.code).toNat = q.code := Nat.mod_eq_of_lt hcode
  rw [State.sizeOut, hport, size_eq_one_iff, htoNat]

/-- On the `tag` output a tag is the number of its row in the table. -/
theorem rowTag_at_encoding (g : Tag) : (opcodeRows.map Row.tag)[g.encoding.toNat]? = some g := by
  cases g <;> rfl

theorem tagEncoding_injective : Function.Injective Tag.encoding := fun g g' h =>
  Option.some.inj <| by rw [← rowTag_at_encoding g, h, rowTag_at_encoding]

theorem exists_row_of_tag (g : Tag) : ∃ row ∈ opcodeRows, row.tag = g :=
  List.mem_map.mp (List.mem_of_getElem? (rowTag_at_encoding g))

/-- A row covers the codes of its own tag and no other (R78). -/
theorem row_covers_iff {row : Row} (hrow : row ∈ opcodeRows) (c : BitVec 6) :
    row.covers c = true ↔ row.tag = TYPE c := by
  revert c row; decide

/-- Two codes have one tag exactly when one row of the table covers both (R78). -/
theorem type_eq_iff_covered (c c' : BitVec 6) :
    TYPE c = TYPE c' ↔ ∃ row ∈ opcodeRows, row.covers c = true ∧ row.covers c' = true := by
  constructor
  · intro h
    obtain ⟨row, hrow, htag⟩ := exists_row_of_tag (TYPE c)
    exact ⟨row, hrow, (row_covers_iff hrow c).mpr htag, (row_covers_iff hrow c').mpr (htag.trans h)⟩
  · rintro ⟨row, hrow, hc, hc'⟩
    exact ((row_covers_iff hrow c).mp hc).symm.trans ((row_covers_iff hrow c').mp hc')

/-- Settles O4: the `tag` output encodes the tag of the code on the port, and no two tags have one encoding. -/
theorem tagOutputTellsTheRowsApart : Obligations.TagOutputTellsTheRowsApart := by
  intro s s' t t' q q' rest rest' hs hs' h h'
  rw [State.tagOut, State.tagOut, (step_code hs h).2, (step_code hs' h').2, tagEncoding_injective.eq_iff,
    type_eq_iff_covered]

end Sys2Proof.Machine
end

