-- ==== Sys2Proof/Proofs/Steps.lean ====
section
/-! One step on the caller's next request (40_transactions.md R110, decision D7): the transaction it runs, when it is
an idle step, and when it is refused. -/

namespace Sys2Proof.Machine

open Sys2Proof.Statement

/-- A request with `start` whose code decodes runs the transaction of its mode. -/
theorem step_runs {s : State} {q : Request} {rest : List Request} {i : Instr} (hs : s.schedule = q :: rest)
    (hstart : q.start = true) (hi : decode q.code = .ok i) :
    step s = exec i ({ s with schedule := rest }.present q) := by
  obtain ⟨hcode, rfl⟩ := decode_ok hi
  rw [step_of_schedule hs, issue_with_start hcode hstart]

/-- Settles O29: the step is `exec` of the decoded mode, with the request on the ports. -/
theorem stepRunsTheDecodedMode : Obligations.StepRunsTheDecodedMode := by
  intro s q rest i hs hstart hi
  rw [step_runs hs hstart hi, State.present, hstart]

theorem step_without_request {s : State} (hs : s.schedule = []) : step s = .next s.deassert.idle := by
  simp only [step, takeRequest, hs]

/-- Settles O30: in both cases the step is an idle one. -/
theorem stepWithoutATransactionKeepsTheCpu : Obligations.StepWithoutATransactionKeepsTheCpu := by
  rintro s (hs | ⟨q, rest, hs, hstart, hcode⟩)
  · exact ⟨_, step_without_request hs, rfl, rfl, rfl, by simp [hs]⟩
  · exact ⟨_, (step_of_schedule hs).trans (issue_without_start hcode hstart _), rfl, rfl, hstart, by simp [hs]⟩

/-- A request in range makes a step that goes on and takes the request. -/
theorem step_inRange {s : State} {q : Request} {rest : List Request} (hs : s.schedule = q :: rest)
    (hcode : q.code < Config.codeCount) : ∃ t, step s = .next t ∧ t.schedule = rest := by
  rw [step_of_schedule hs]
  cases hstart : q.start with
  | false => exact ⟨_, issue_without_start hcode hstart _, rfl⟩
  | true =>
    rw [issue_with_start hcode hstart]
    obtain ⟨t, ht, -, hschedule⟩ := exec_completes _ (State.present { s with schedule := rest } q)
    exact ⟨t, ht, hschedule⟩

theorem issue_outOfRange {q : Request} (hcode : Config.codeCount ≤ q.code) (s : State) :
    issue q s = .refused (.operandCodeOutOfRange q.code) := by
  simp [issue, decode, Nat.not_lt.mpr hcode]

/-- Settles O31: the boundary refuses a code of 64 or more, and on any other code the step goes on. -/
theorem codeOutOfRangeIsRefusedByName : Obligations.CodeOutOfRangeIsRefusedByName := by
  intro s q rest hs
  constructor
  · exact fun hcode => (step_of_schedule hs).trans (issue_outOfRange hcode _)
  · intro hrefused
    by_contra hlt
    obtain ⟨t, ht, -⟩ := step_inRange hs (Nat.not_le.mp hlt)
    cases ht.symm.trans hrefused

/-- Settles O32: the transaction is the rule of the decoded mode, and READ and WRITE are that rule on the CPU state. -/
theorem stepIsTheReadOrWriteFunction : Obligations.StepIsTheReadOrWriteFunction := by
  intro s q rest hs hstart hcode
  rw [step_runs hs hstart (decode_inRange hcode)]
  cases hop : q.op with
  | read => exact ⟨_, exec_read hop, rfl, fun _ => ⟨rfl, rfl⟩, nofun⟩
  | write => exact ⟨_, exec_write hop, rfl, nofun, fun _ => rfl⟩

end Sys2Proof.Machine
end

