-- ==== Sys2Proof/Proofs/Invariants.lean ====
section
/-! What may change SP, a general register, O and a memory cell, over every step (10_state.md §2, 20_memory.md §2,
40_transactions.md R107 to R109), and which transactions keep the whole CPU state. -/

namespace Sys2Proof.Machine

open Sys2Proof.Statement

/-! ### The rules of the modes -/

/-- READ of any other mode than POP and PUSH keeps the CPU state (R108). -/
theorem readMode_keeps_cpu {i : Instr} (hpop : i ≠ .pop) (hpush : i ≠ .push) (t : Tx) :
    (readMode i t).2.cpu = t.cpu := by
  cases i with
  | pop => exact absurd rfl hpop
  | push => exact absurd rfl hpush
  | _ => rfl

/-- WRITE of any other mode than SP keeps SP (R26). -/
theorem writeMode_sp {i : Instr} (hi : i ≠ .sp) (v : Word) (t : Tx) : (writeMode i v t).cpu.sp = t.cpu.sp := by
  cases i with
  | sp => exact absurd rfl hi
  | _ => rfl

/-- WRITE of any other mode than the direct register `j` keeps `x[j]` (R109). -/
theorem writeMode_register {i : Instr} {j : Fin 8} (hi : i ≠ .reg j) (v : Word) (t : Tx) :
    (writeMode i v t).cpu.x[j] = t.cpu.x[j] := by
  cases i with
  | reg r =>
    have hj : j ≠ r := fun h => hi (h ▸ rfl)
    exact (getElem_setRegister _ r j v).trans (if_neg hj)
  | _ => rfl

/-- WRITE of a mode with a memory destination stores there and changes no register (R124, R126, R181). -/
theorem writeMode_of_destination {i : Instr} {t : Tx} {a : Word} (h : destination i t.cpu = some a) (v : Word) :
    (writeMode i v t).cpu = { t.cpu with mem := t.cpu.mem.write a.toNat v } := by
  cases i with
  | indReg r => cases h; simp [writeMode, writeIndReg_eq]
  | indRegNext r => cases h; simp [writeMode, writeIndRegNext_eq, nextWordOf]
  | indNext => cases h; simp [writeMode, writeIndNext_eq, nextWordOf]
  | _ => cases h

/-- WRITE of a mode without a memory destination keeps memory. -/
theorem writeMode_mem {i : Instr} {t : Tx} (h : destination i t.cpu = none) (v : Word) :
    (writeMode i v t).cpu.mem = t.cpu.mem := by
  cases i with
  | indReg r => cases h
  | indRegNext r => cases h
  | indNext => cases h
  | _ => rfl

/-- A READ that goes on leaves all of the CPU state but SP as it was (R108). -/
theorem exec_read_cpu {i : Instr} {s t : State} (hop : s.inp.op = .read) (h : exec i s = .next t) :
    t.cpu = { s.cpu with sp := t.cpu.sp } := by
  obtain rfl := eq_afterRead hop h
  exact readMode_cpu i _

/-! ### SP -/

/-- The three transactions that change SP, and what they make of it (R26). -/
theorem exec_sp_changed {i : Instr} {s t : State} (h : exec i s = .next t) (hne : t.cpu.sp ≠ s.cpu.sp) :
    (s.inp.op = .read ∧ i = .pop ∧ t.cpu.sp = s.cpu.sp + 1) ∨
    (s.inp.op = .read ∧ i = .push ∧ t.cpu.sp = s.cpu.sp - 1) ∨
    (s.inp.op = .write ∧ i = .sp ∧ t.cpu.sp = s.inp.wdata) := by
  obtain ⟨hop, rfl⟩ | ⟨hop, rfl⟩ := exec_cases h
  · by_cases hpop : i = .pop
    · subst hpop; exact .inl ⟨hop, rfl, rfl⟩
    · by_cases hpush : i = .push
      · subst hpush; exact .inr (.inl ⟨hop, rfl, rfl⟩)
      · exact absurd (congrArg Cpu.sp (readMode_keeps_cpu hpop hpush _)) hne
  · by_cases hsp : i = .sp
    · subst hsp; exact .inr (.inr ⟨hop, rfl, rfl⟩)
    · exact absurd (writeMode_sp hsp _ _) hne

/-- Settles O33: a step that changes SP has run one of the three transactions, whose codes are 0x18, 0x1A and 0x1B. -/
theorem spMovesOnlyByPopPushAndItsWrite : Obligations.SpMovesOnlyByPopPushAndItsWrite := by
  intro s t h hne
  obtain ⟨q, rest, i, hq, hstart, hcode, hexec⟩ := step_cpu_changed h fun heq => hne (congrArg Cpu.sp heq)
  refine ⟨q, rest, hq, hstart, ?_⟩
  obtain ⟨hop, rfl, hsp⟩ | ⟨hop, rfl, hsp⟩ | ⟨hop, rfl, hsp⟩ := exec_sp_changed hexec hne
  · exact .inl ⟨hop, hcode, hsp⟩
  · exact .inr (.inl ⟨hop, hcode, hsp⟩)
  · exact .inr (.inr ⟨hop, hcode, hsp⟩)

/-! ### O -/

/-- Settles O35: a step that changes O has run a transaction, and the only transaction that changes O is the WRITE of
the O mode, whose code is 0x1D. -/
theorem overflowChangesOnlyByWriteOfCode1D : Obligations.OverflowChangesOnlyByWriteOfCode1D := by
  intro s t h hne
  obtain ⟨q, rest, i, hq, hstart, hcode, hexec⟩ := step_cpu_changed h fun heq => hne (congrArg Cpu.o heq)
  obtain ⟨rfl, hop, hcpu⟩ := exec_o_changed hexec hne
  exact ⟨q, rest, hq, hstart, hop, hcode, hcpu⟩

/-! ### The general registers -/

/-- A general register changes under the WRITE of its own direct mode alone (R109). -/
theorem exec_register_changed {i : Instr} {j : Fin 8} {s t : State} (h : exec i s = .next t)
    (hne : t.cpu.x[j] ≠ s.cpu.x[j]) : i = .reg j ∧ s.inp.op = .write ∧ t.cpu.x[j] = s.inp.wdata := by
  obtain ⟨hop, hcpu⟩ := exec_write_of_changed (fun c => c.x[j]) (fun _ _ => rfl) h hne
  obtain rfl : i = .reg j := by_contra fun hi => hne (hcpu ▸ writeMode_register hi _ _)
  exact ⟨rfl, hop, hcpu ▸ (getElem_setRegister _ j j _).trans (if_pos rfl)⟩

/-- Settles O36: a step that changes `x[i]` has run the WRITE of the direct mode of `i`, whose code is `i`. -/
theorem registerChangesOnlyByWriteOfItsCode : Obligations.RegisterChangesOnlyByWriteOfItsCode := by
  intro s t j h hne
  obtain ⟨q, rest, i, hq, hstart, hcode, hexec⟩ := step_cpu_changed h fun heq => hne (by rw [heq])
  obtain ⟨rfl, hop, hx⟩ := exec_register_changed hexec hne
  exact ⟨q, rest, hq, hstart, hop, hcode.trans (encode_reg_toNat j), hx⟩

/-! ### The cells of memory -/

/-- A cell changes under a WRITE whose destination it is, and then holds the Word written (R51, R54). -/
theorem exec_cell_changed {i : Instr} {n : Nat} {s t : State} (h : exec i s = .next t)
    (hne : t.cpu.mem.read n ≠ s.cpu.mem.read n) :
    s.inp.op = .write ∧ (∃ a, destination i s.cpu = some a ∧ n % Config.memWords = a.toNat) ∧
      t.cpu.mem.read n = s.inp.wdata := by
  obtain ⟨hop, hcpu⟩ := exec_write_of_changed (fun c => c.mem.read n) (fun _ _ => rfl) h hne
  cases hdest : destination i s.cpu with
  | none => exact absurd (by rw [hcpu, writeMode_mem hdest]) hne
  | some a =>
    have hcell : t.cpu.mem.read n = if n % Config.memWords = a.toNat then s.inp.wdata else s.cpu.mem.read n := by
      rw [hcpu, writeMode_of_destination hdest]
      exact (storesOnly_write s.cpu a s.inp.wdata).2 n
    by_cases hn : n % Config.memWords = a.toNat
    · exact ⟨hop, ⟨a, rfl, hn⟩, hcell.trans (if_pos hn)⟩
    · exact absurd (hcell.trans (if_neg hn)) hne

/-- Settles O37: a step that changes a cell has run the WRITE of a mode whose destination it is. -/
theorem cellChangesOnlyAsAWritesDestination : Obligations.CellChangesOnlyAsAWritesDestination := by
  intro s t n h hne
  obtain ⟨q, rest, i, hq, hstart, hcode, hexec⟩ := step_cpu_changed h fun heq => hne (by rw [heq])
  obtain ⟨hop, hdest, hcell⟩ := exec_cell_changed hexec hne
  exact ⟨q, rest, i, hq, hstart, hop, decode_eq_ok_iff.mpr hcode, hdest, hcell⟩

/-! ### The transactions that keep the CPU state -/

/-- READ of POP and of PUSH moves SP, from the reset state for one. -/
theorem exec_pop_push_changes_reset {i : Instr} (hi : i = .pop ∨ i = .push) :
    ∃ t, exec i State.reset = .next t ∧ t.cpu ≠ State.reset.cpu := by
  obtain rfl | rfl := hi
  · exact ⟨_, exec_read rfl, by decide⟩
  · exact ⟨_, exec_read rfl, by decide⟩

/-- Settles O38: only POP and PUSH have a READ that changes the CPU state, and no READ changes more than SP. -/
theorem readHasSideEffectsForPopAndPushAlone : Obligations.ReadHasSideEffectsForPopAndPushAlone := by
  refine ⟨fun n i hi => ⟨fun hkeeps => ?_, fun ⟨hpop, hpush⟩ s t hop h => ?_⟩, fun i s t => exec_read_cpu⟩
  · by_contra hn
    have hmode : i = .pop ∨ i = .push := by
      obtain rfl | rfl : n = 0x18 ∨ n = 0x1A := by omega
      · exact .inl (Except.ok.inj (hi.symm.trans decode_pop))
      · exact .inr (Except.ok.inj (hi.symm.trans decode_push))
    obtain ⟨t, ht, hne⟩ := exec_pop_push_changes_reset hmode
    exact hne (hkeeps _ t rfl ht)
  · obtain rfl := eq_afterRead hop h
    refine readMode_keeps_cpu ?_ ?_ _
    · rintro rfl; exact hpop (decode_eq_ok_iff.mp hi)
    · rintro rfl; exact hpush (decode_eq_ok_iff.mp hi)

/-- WRITE of a mode with a read-only code returns the transaction it is given (R107). -/
theorem writeMode_readOnly {i : Instr}
    (hi : (0x18 ≤ (encode i).toNat ∧ (encode i).toNat ≤ 0x1A) ∨ 0x1F ≤ (encode i).toNat) (v : Word) (t : Tx) :
    writeMode i v t = t := by
  cases i with
  | reg r => rw [encode_reg_toNat] at hi; omega
  | indReg r => rw [encode_indReg_toNat] at hi; omega
  | indRegNext r => rw [encode_indRegNext_toNat] at hi; omega
  | sp | pc | o | indNext => exact absurd hi (by decide)
  | pop | peek | push | next | literal => rfl

/-- WRITE of every other code changes a CPU state of zeros when it writes 1 (R107). -/
theorem readOnly_of_write_keeps_reset (c : BitVec 6) (h : WRITE c 1 Cpu.reset = Cpu.reset) :
    (0x18 ≤ c.toNat ∧ c.toNat ≤ 0x1A) ∨ 0x1F ≤ c.toNat := by
  revert c; decide

/-- Settles O39: the WRITE of a read-only code stores nothing, and that of any other code shows on zeroed
registers and memory. -/
theorem writeIsANoOpForExactlyTheReadOnlyCodes : Obligations.WriteIsANoOpForExactlyTheReadOnlyCodes := by
  intro n i hi
  obtain rfl := decode_eq_ok_iff.mp hi
  constructor
  · intro hkeeps
    refine readOnly_of_write_keeps_reset _ ?_
    rw [WRITE, decodeCode_encode]
    exact hkeeps { State.reset with inp := ⟨0, .write, 1, true⟩ } _ rfl (exec_write rfl)
  · intro hreadOnly s t hop h
    obtain rfl := eq_afterWrite hop h
    rw [State.afterWrite_cpu, writeMode_readOnly hreadOnly]

end Sys2Proof.Machine
end

