-- ==== Sys2Proof/Proofs/Accesses.lean ====
section
/-! The accessor calls of a transaction (10_state.md R34, 20_memory.md R54): they follow from what the calls read, and
those to memory are the table's. -/

namespace Sys2Proof.Machine

open Sys2Proof.Statement

/-! ### What a transaction depends on -/

/-- Two CPU states that agree on what a READ's calls read have the same calls and the same value: each call's argument
is computed from what the calls before it have read. -/
theorem readMode_of_agrees (i : Instr) (c d : Cpu)
    (h : ∀ a ∈ (readMode i ⟨c, []⟩).2.log, AgreesOn a c d) :
    (readMode i ⟨d, []⟩).2.log = (readMode i ⟨c, []⟩).2.log ∧
      (readMode i ⟨d, []⟩).1 = (readMode i ⟨c, []⟩).1 := by
  cases i with
  | reg | sp | pc | o =>
    simp only [readMode, readReg_eq, readSp_eq, readPc_eq, readO_eq, List.nil_append, List.forall_mem_singleton,
      AgreesOn] at h ⊢
    simp only [h, and_self]
  | indReg | pop | peek | push =>
    simp only [readMode, readIndReg_eq, readPop_eq, readPeek_eq, readPush_eq, List.nil_append, List.forall_mem_cons,
      AgreesOn] at h ⊢
    obtain ⟨haddress, hcell, -⟩ := h
    simp only [← haddress, ← hcell, and_self]
  | indRegNext r =>
    simp only [readMode, readIndRegNext_eq, List.nil_append, List.forall_mem_cons, AgreesOn] at h ⊢
    obtain ⟨hpc, hnext, hx, hcell, -⟩ := h
    simp only [← hpc, ← hnext, ← hx, ← hcell, and_self]
  | indNext =>
    simp only [readMode, readIndNext_eq, List.nil_append, List.forall_mem_cons, AgreesOn] at h ⊢
    obtain ⟨hpc, hnext, hcell, -⟩ := h
    simp only [← hpc, ← hnext, ← hcell, and_self]
  | next =>
    simp only [readMode, readNext_eq, List.nil_append, List.forall_mem_cons, AgreesOn] at h ⊢
    obtain ⟨hpc, hnext, -⟩ := h
    simp only [← hpc, ← hnext, and_self]
  | literal lit => exact ⟨rfl, rfl⟩

/-- The same for a WRITE's calls, with the addresses and the Word they store. -/
theorem writeMode_of_agrees (i : Instr) (v : Word) (c d : Cpu)
    (h : ∀ a ∈ (writeMode i v ⟨c, []⟩).log, AgreesOn a c d) :
    (writeMode i v ⟨d, []⟩).log = (writeMode i v ⟨c, []⟩).log := by
  cases i with
  | indReg r =>
    simp only [writeMode, writeIndReg_eq, List.nil_append, List.forall_mem_cons, AgreesOn] at h ⊢
    obtain ⟨hx, -⟩ := h
    rw [← hx]
  | indRegNext r =>
    simp only [writeMode, writeIndRegNext_eq, List.nil_append, List.forall_mem_cons, AgreesOn] at h ⊢
    obtain ⟨hpc, hnext, hx, -⟩ := h
    rw [← hpc, ← hnext, ← hx]
  | indNext =>
    simp only [writeMode, writeIndNext_eq, List.nil_append, List.forall_mem_cons, AgreesOn] at h ⊢
    obtain ⟨hpc, hnext, -⟩ := h
    rw [← hpc, ← hnext]
  | _ => rfl

/-- Settles O41: both transactions run the rule of one mode, and the rule's calls and value follow from what the
calls read. -/
theorem transactionsDependOnlyOnWhatTheyReach : Obligations.TransactionsDependOnlyOnWhatTheyReach := by
  intro i s s' t t' hop hwdata h h' hagrees
  cases hs : s.inp.op with
  | read =>
    obtain rfl := eq_afterRead hs h
    obtain rfl := eq_afterRead (hop.trans hs) h'
    obtain ⟨hlog, hvalue⟩ := readMode_of_agrees i s.cpu s'.cpu hagrees
    exact ⟨hlog, fun _ => hvalue⟩
  | write =>
    obtain rfl := eq_afterWrite hs h
    obtain rfl := eq_afterWrite (hop.trans hs) h'
    refine ⟨?_, nofun⟩
    rw [State.afterWrite_activity, hwdata]
    exact writeMode_of_agrees i s.inp.wdata s.cpu s'.cpu hagrees

/-! ### The table of memory accesses, mode by mode -/

theorem tableAccesses_reg (r : Fin 8) (op : Op) : tableAccesses (encode (.reg r)).toNat op = [] := by
  rw [encode_reg_toNat, tableAccesses.eq_def, if_pos (by omega)]

theorem tableAccesses_indReg (r : Fin 8) (op : Op) : tableAccesses (encode (.indReg r)).toNat op = [op] := by
  rw [encode_indReg_toNat, tableAccesses.eq_def, if_neg (by omega), if_pos (by omega)]

theorem tableAccesses_indRegNext (r : Fin 8) (op : Op) :
    tableAccesses (encode (.indRegNext r)).toNat op = [.read, op] := by
  rw [encode_indRegNext_toNat, tableAccesses.eq_def, if_neg (by omega), if_neg (by omega), if_pos (by omega)]

theorem tableAccesses_literal (lit : BitVec 5) (op : Op) :
    tableAccesses (encode (.literal lit)).toNat op = [] := by
  rw [encode_literal_toNat, tableAccesses.eq_def, if_pos (by omega)]

/-- The memory accesses of a READ are those of the table (R54). -/
theorem memoryAccesses_readMode (i : Instr) (c : Cpu) :
    memoryAccesses (readMode i ⟨c, []⟩).2.log = tableAccesses (encode i).toNat .read := by
  cases i with
  | reg r => rw [tableAccesses_reg]; rfl
  | indReg r => rw [tableAccesses_indReg]; rfl
  | indRegNext r => rw [tableAccesses_indRegNext]; rfl
  | literal lit => rw [tableAccesses_literal]; rfl
  | _ => rfl

/-- The memory accesses of a WRITE are those of the table (R54). -/
theorem memoryAccesses_writeMode (i : Instr) (v : Word) (c : Cpu) :
    memoryAccesses (writeMode i v ⟨c, []⟩).log = tableAccesses (encode i).toNat .write := by
  cases i with
  | reg r => rw [tableAccesses_reg]; rfl
  | indReg r => rw [tableAccesses_indReg]; rfl
  | indRegNext r => rw [tableAccesses_indRegNext]; rfl
  | literal lit => rw [tableAccesses_literal]; rfl
  | _ => rfl

/-- Settles O42: the transaction completes, and the accesses of the mode's rule are the table's for the mode's code. -/
theorem memoryAccessesFollowTheTable : Obligations.MemoryAccessesFollowTheTable := by
  intro n i s hi
  obtain rfl := decode_eq_ok_iff.mp hi
  cases hop : s.inp.op with
  | read => exact ⟨_, exec_read hop, memoryAccesses_readMode i s.cpu⟩
  | write => exact ⟨_, exec_write hop, memoryAccesses_writeMode i s.inp.wdata s.cpu⟩

end Sys2Proof.Machine
end

