-- ==== Sys2Proof/Proofs/CanonicalMemory.lean ====
section
/-! The canonical form of memory (log 6): it makes equal memories equal data, it holds at reset, and every step keeps
it. -/

namespace Sys2Proof.Machine

open Sys2Proof.Statement

/-! ### Equal memories are equal data -/

/-- A key that does not read as an unlisted one is listed. -/
theorem Memory.mem_of_lookup_ne {m : Memory} {k : Nat} (h : m.lookup k ≠ Config.unlistedWord) :
    (k, m.lookup k) ∈ m := by
  induction m with
  | nil => exact absurd rfl h
  | cons c rest ih =>
    obtain ⟨j, w⟩ := c
    simp only [lookup] at h ⊢
    split at h
    · subst k; simp
    · rename_i hjk
      rw [if_neg hjk]
      exact List.mem_cons_of_mem _ (ih h)

/-- Among rising keys a listed Word is the one its key reads as. -/
theorem Memory.lookup_of_mem {m : Memory} (hm : (m.map Prod.fst).Pairwise (· < ·)) {c : WordCell} (hc : c ∈ m) :
    m.lookup c.1 = c.2 := by
  induction m with
  | nil => simp at hc
  | cons d rest ih =>
    obtain ⟨hlt, hrest⟩ := List.pairwise_cons.mp hm
    obtain rfl | hc := List.mem_cons.mp hc
    · exact if_pos rfl
    · have hne : d.1 ≠ c.1 := (hlt _ (List.mem_map_of_mem hc)).ne
      exact (if_neg hne).trans (ih hrest hc)

/-- Every cell of a canonical memory is listed in each memory that reads alike. -/
theorem Memory.subset_of_read_eq {m m' : Memory} (hm : m.wf) (h : ∀ a, m.read a = m'.read a) : m ⊆ m' := by
  obtain ⟨hrising, hcells⟩ := hm
  intro c hc
  obtain ⟨hkey, hword⟩ := hcells c hc
  have hlookup : m'.lookup c.1 = c.2 := by
    rw [← lookup_of_mem hrising hc]
    simpa only [read, Nat.mod_eq_of_lt hkey] using (h c.1).symm
  have hmem : (c.1, m'.lookup c.1) ∈ m' := mem_of_lookup_ne (hlookup ▸ hword)
  rwa [hlookup] at hmem

/-- Settles O44: the two lists have the same cells, and rising keys leave one order for them. -/
theorem canonicalMemoriesThatReadAlikeAreEqual : Obligations.CanonicalMemoriesThatReadAlikeAreEqual := by
  intro m m' hm hm' h
  have hperm : m.Perm m' := (List.perm_ext_iff_of_nodup hm.1.nodup.of_map hm'.1.nodup.of_map).mpr fun _ =>
    ⟨fun hc => Memory.subset_of_read_eq hm h hc, fun hc => Memory.subset_of_read_eq hm' (fun a => (h a).symm) hc⟩
  exact hperm.eq_of_pairwise (le := fun c d => c.1 < d.1)
    (fun c d _ _ hcd hdc => absurd hcd (Nat.lt_asymm hdc)) (List.pairwise_map.mp hm.1) (List.pairwise_map.mp hm'.1)

/-! ### The canonical form is kept -/

/-- A transaction keeps the canonical form: a READ stores nothing, and a WRITE stores by one memory write. -/
theorem exec_keeps_wf {i : Instr} {s t : State} (hs : s.cpu.mem.wf) (h : exec i s = .next t) : t.cpu.mem.wf := by
  obtain ⟨-, rfl⟩ | ⟨-, rfl⟩ := exec_cases h
  · rw [State.afterRead_cpu, readMode_cpu]
    exact hs
  · rw [State.afterWrite_cpu]
    cases hdest : destination i s.cpu with
    | none => rwa [writeMode_mem hdest]
    | some a =>
      rw [writeMode_of_destination hdest]
      exact Memory.wf_write hs _ _

/-- Settles O45: a step that changes the CPU state has run a transaction, which keeps the canonical form. -/
theorem stepKeepsMemoryCanonical : Obligations.StepKeepsMemoryCanonical := by
  intro s t hs h
  by_cases hcpu : t.cpu = s.cpu
  · rwa [State.Inv, hcpu]
  · obtain ⟨q, rest, i, -, -, -, hexec⟩ := step_cpu_changed h hcpu
    exact exec_keeps_wf (s := State.present { s with schedule := rest } q) hs hexec

/-- Settles O46: no cell is listed at reset. -/
theorem resetMemoryIsCanonical : Obligations.ResetMemoryIsCanonical :=
  Memory.wf_nil

end Sys2Proof.Machine
end

