-- ==== Sys2Proof/Proofs/Runs.lean ====
section
/-! Runs of any length over admitted schedules (60_exceptions.md R200, 40_transactions.md R112): they go on, take one
request a step, and keep what each of their steps keeps. -/

namespace Sys2Proof.Machine

open Sys2Proof.Statement

/-- The step of an admitted schedule goes on and takes its first request, if there is one. -/
theorem step_admitted {s : State} (hs : s.Admitted) : ∃ t, step s = .next t ∧ t.schedule = s.schedule.tail := by
  cases hschedule : s.schedule with
  | nil => exact ⟨_, step_without_request hschedule, hschedule⟩
  | cons q rest => exact step_inRange hschedule (of_decide_eq_true (hs q (hschedule ▸ List.mem_cons_self)))

/-- The induction over the length of a run: where every pending request meets `P`, which admits it, and a step on such
requests keeps the part `f` of the CPU state, so does every run. -/
theorem run_admitted {α : Type} (f : Cpu → α) (P : Request → Prop) (hadmit : ∀ q, P q → q.wellFormed = true)
    (hstep : ∀ s t, (∀ q ∈ s.schedule, P q) → step s = .next t → f t.cpu = f s.cpu) (k : Nat) (s : State)
    (hs : ∀ q ∈ s.schedule, P q) :
    ∃ t, Sys2Proof.core.run k s = .next t ∧ t.schedule = s.schedule.drop k ∧ f t.cpu = f s.cpu := by
  induction k generalizing s with
  | zero => exact ⟨s, run_zero s, rfl, rfl⟩
  | succ k ih =>
    obtain ⟨t, ht, htail⟩ := step_admitted fun q hq => hadmit q (hs q hq)
    obtain ⟨u, hu, hdrop, hf⟩ := ih t fun q hq => hs q (List.mem_of_mem_tail (htail ▸ hq))
    exact ⟨u, (run_succ k ht).trans hu, by rw [hdrop, htail, List.drop_tail], hf.trans (hstep s t hs ht)⟩

/-- Settles O47: the induction over the run, with nothing asked of the CPU state. -/
theorem everyAdmittedScheduleRunsToItsEnd : Obligations.EveryAdmittedScheduleRunsToItsEnd := by
  intro k s hs
  obtain ⟨t, ht, hdrop, -⟩ := run_admitted (fun _ => ()) (·.wellFormed = true) (fun _ => id)
    (fun _ _ _ _ => rfl) k s hs
  exact ⟨t, ht, hdrop⟩

/-- A step keeps SP where each pending request has the code of PEEK: the transactions that move SP have other codes. -/
theorem step_peek_keeps_sp {s t : State} (hs : ∀ q ∈ s.schedule, q.code = 0x19) (h : step s = .next t) :
    t.cpu.sp = s.cpu.sp := by
  by_contra hne
  obtain ⟨q, rest, hq, -, hmoved⟩ := spMovesOnlyByPopPushAndItsWrite s t h hne
  have hcode : q.code = 0x19 := hs q (hq ▸ List.mem_cons_self)
  omega

/-- Settles O48: no step on PEEK moves SP, so no run of such steps does. -/
theorem peekNeverMovesTheStackPointer : Obligations.PeekNeverMovesTheStackPointer := by
  intro k s hs
  obtain ⟨t, ht, -, hsp⟩ := run_admitted Cpu.sp (·.code = 0x19) (fun q hq => decide_eq_true (hq ▸ by decide))
    (fun _ _ => step_peek_keeps_sp) k s hs
  exact ⟨t, ht, hsp⟩

/-- The CPU state but for SP. -/
def Cpu.withoutSp (c : Cpu) : Cpu :=
  { c with sp := 0 }

theorem Cpu.withoutSp_eq_iff {c d : Cpu} : d.withoutSp = c.withoutSp ↔ d = { c with sp := d.sp } := by
  constructor
  · intro h
    calc d = { d.withoutSp with sp := d.sp } := rfl
      _ = { c.withoutSp with sp := d.sp } := by rw [h]
      _ = { c with sp := d.sp } := rfl
  · intro h
    rw [h]
    rfl

theorem nextWordOf_withoutSp (c : Cpu) : nextWordOf c.withoutSp = nextWordOf c := rfl

/-- A step keeps all but SP where each pending request is a READ (R108). -/
theorem step_read_keeps_withoutSp {s t : State} (hs : ∀ q ∈ s.schedule, q.op = .read) (h : step s = .next t) :
    t.cpu.withoutSp = s.cpu.withoutSp := by
  by_cases hcpu : t.cpu = s.cpu
  · rw [hcpu]
  · obtain ⟨q, rest, i, hq, -, -, hexec⟩ := step_cpu_changed h hcpu
    have hop : q.op = .read := hs q (hq ▸ List.mem_cons_self)
    exact Cpu.withoutSp_eq_iff.mpr
      (exec_read_cpu (s := State.present { s with schedule := rest } q) hop hexec)

/-- Settles O49: no READ moves more than SP, so no run of READs does, and the next word does not depend on SP. -/
theorem readsNeverMoveTheNextWord : Obligations.ReadsNeverMoveTheNextWord := by
  intro k s hs
  obtain ⟨t, ht, -, hcpu⟩ := run_admitted Cpu.withoutSp (fun q => q.code < 64 ∧ q.op = .read)
    (fun _ hq => decide_eq_true hq.1) (fun _ _ hreads => step_read_keeps_withoutSp fun q hq => (hreads q hq).2) k s hs
  have hnext : nextWordOf t.cpu = nextWordOf s.cpu := by
    rw [← nextWordOf_withoutSp, hcpu, nextWordOf_withoutSp]
  exact ⟨t, ht, Cpu.withoutSp_eq_iff.mp hcpu, hnext⟩

end Sys2Proof.Machine
end

