-- ==== Sys2Proof/Proofs/Sequences.lean ====
section
/-! Two and three transactions in a row: what one of them stores or moves is what the next one uses (20_memory.md R63,
41_register_modes.md R122, 42_stack_modes.md R148, 43_special_register_modes.md R162, 44_next_word_and_literal_modes.md
R182, 70_reset_and_hazards.md R226, R228). -/

namespace Sys2Proof.Machine

open Sys2Proof.Statement

/-! ### The step on a READ and on a WRITE -/

theorem step_asksRead {s : State} {n : Nat} {w : Word} {rest : List Request} {i : Instr}
    (hs : s.schedule = asksRead n w :: rest) (hi : decode n = .ok i) :
    ∃ t, step s = .next t ∧ t.schedule = rest ∧ t.rdata = (readMode i ⟨s.cpu, []⟩).1 ∧
      t.cpu = (readMode i ⟨s.cpu, []⟩).2.cpu :=
  ⟨_, (step_runs hs rfl hi).trans (exec_read rfl), rfl, rfl, rfl⟩

theorem step_asksWrite {s : State} {n : Nat} {v : Word} {rest : List Request} {i : Instr}
    (hs : s.schedule = asksWrite n v :: rest) (hi : decode n = .ok i) :
    ∃ t, step s = .next t ∧ t.schedule = rest ∧ t.cpu = (writeMode i v ⟨s.cpu, []⟩).cpu :=
  ⟨_, (step_runs hs rfl hi).trans (exec_write rfl), rfl, rfl⟩

/-- A READ, then a READ on the CPU state the first one leaves. -/
theorem steps_read_read {s : State} {n m : Nat} {w w' : Word} {rest : List Request} {i j : Instr}
    (hs : s.schedule = asksRead n w :: asksRead m w' :: rest) (hi : decode n = .ok i) (hj : decode m = .ok j) :
    ∃ t u, step s = .next t ∧ step t = .next u ∧ t.rdata = (readMode i ⟨s.cpu, []⟩).1 ∧
      u.rdata = (readMode j ⟨(readMode i ⟨s.cpu, []⟩).2.cpu, []⟩).1 ∧
      u.cpu = (readMode j ⟨(readMode i ⟨s.cpu, []⟩).2.cpu, []⟩).2.cpu := by
  obtain ⟨t, ht, hrest, hvalue, hcpu⟩ := step_asksRead hs hi
  obtain ⟨u, hu, -, huvalue, hucpu⟩ := step_asksRead hrest hj
  exact ⟨t, u, ht, hu, hvalue, hcpu ▸ huvalue, hcpu ▸ hucpu⟩

/-- A WRITE, then a READ on the CPU state the WRITE leaves. -/
theorem steps_write_read {s : State} {n m : Nat} {v w : Word} {rest : List Request} {i j : Instr}
    (hs : s.schedule = asksWrite n v :: asksRead m w :: rest) (hi : decode n = .ok i) (hj : decode m = .ok j) :
    ∃ t u, step s = .next t ∧ step t = .next u ∧ t.cpu = (writeMode i v ⟨s.cpu, []⟩).cpu ∧
      u.rdata = (readMode j ⟨t.cpu, []⟩).1 ∧ u.cpu = (readMode j ⟨t.cpu, []⟩).2.cpu := by
  obtain ⟨t, ht, hrest, hcpu⟩ := step_asksWrite hs hi
  obtain ⟨u, hu, -, hvalue, hucpu⟩ := step_asksRead hrest hj
  exact ⟨t, u, ht, hu, hcpu, hvalue, hucpu⟩

/-! ### The stack -/

/-- Settles O50: PUSH loads at SP - 1 and leaves SP there, so POP loads the same cell and moves SP back. -/
theorem pushThenPopRestoresTheStackPointer : Obligations.PushThenPopRestoresTheStackPointer := by
  intro s w w' rest hs
  obtain ⟨t, u, ht, hu, htvalue, huvalue, hcpu⟩ := steps_read_read hs decode_push decode_pop
  simp only [readMode, readPush_eq, readPop_eq, BitVec.sub_add_cancel] at htvalue huvalue hcpu
  exact ⟨t, u, ht, hu, htvalue, huvalue.trans htvalue.symm, hcpu⟩

/-- Settles O53: the second transaction uses the SP that the first one leaves. -/
theorem spIsOneRegisterAndTheOrderOfDecodesShows : Obligations.SpIsOneRegisterAndTheOrderOfDecodesShows := by
  intro s v w w' rest
  refine ⟨fun hs => ?_, fun hs => ?_, fun hs => ?_, fun hs => ?_⟩
  · obtain ⟨t, u, ht, hu, hcpu, -, hucpu⟩ := steps_write_read hs decode_sp decode_push
    exact ⟨t, u, ht, hu, by simp [hucpu, hcpu, readMode, readPush_eq, writeMode, writeSp_eq]⟩
  · obtain ⟨t, u, ht, hu, -, hvalue, -⟩ := steps_read_read hs decode_pop decode_sp
    exact ⟨t, u, ht, hu, by simp [hvalue, readMode, readPop_eq, readSp_eq]⟩
  · obtain ⟨t, u, ht, hu, -, hvalue, -⟩ := steps_read_read hs decode_push decode_sp
    exact ⟨t, u, ht, hu, by simp [hvalue, readMode, readPush_eq, readSp_eq]⟩
  · obtain ⟨t, u, ht, hu, hvalue, -, -⟩ := steps_read_read hs decode_sp decode_push
    exact ⟨t, u, ht, hu, hvalue⟩

/-! ### A register -/

/-- The CPU state after `x[r]` is set has it, in the form the modes read it. -/
theorem writeMode_reg_register (r : Fin 8) (v : Word) (t : Tx) : (writeMode (.reg r) v t).cpu.x[r] = v :=
  (getElem_setRegister _ r r v).trans (if_pos rfl)

/-- Settles O52: both READs compute their address from the register as the WRITE left it. -/
theorem writeOfARegisterMovesItsIndirectOperands : Obligations.WriteOfARegisterMovesItsIndirectOperands := by
  intro s r v w rest
  constructor
  · intro hs
    obtain ⟨t, u, ht, hu, hcpu, hvalue, -⟩ := steps_write_read hs (decode_reg r) (decode_indReg r)
    refine ⟨t, u, ht, hu, ?_⟩
    rw [hvalue, hcpu, readMode, readIndReg_eq, writeMode_reg_register]
    rfl
  · intro hs
    obtain ⟨t, u, ht, hu, hcpu, hvalue, -⟩ := steps_write_read hs (decode_reg r) (decode_indRegNext r)
    refine ⟨t, u, ht, hu, ?_⟩
    rw [hvalue, hcpu, readMode, readIndRegNext_eq, writeMode_reg_register]
    rfl

/-- Settles O56: the READ loads at the register's old Word, and the second WRITE stores at the Word the first has put
there. -/
theorem writeUsesTheAddressOfItsOwnTime : Obligations.WriteUsesTheAddressOfItsOwnTime := by
  intro s r a v w rest hs
  obtain ⟨t, ht, htrest, htvalue, htcpu⟩ := step_asksRead hs (decode_indReg r)
  obtain ⟨u, hu, hurest, hucpu⟩ := step_asksWrite htrest (decode_reg r)
  obtain ⟨z, hz, -, hzcpu⟩ := step_asksWrite hurest (decode_indReg r)
  have hread : t.rdata = s.cpu.mem.read s.cpu.x[r].toNat := by rw [htvalue, readMode, readIndReg_eq]
  have hkept : u.cpu.mem = s.cpu.mem := by rw [hucpu, htcpu]; rfl
  have hdest : destination (.indReg r) u.cpu = some a := by
    rw [destination, hucpu, writeMode_reg_register]
  refine ⟨t, u, z, ht, hu, hz, hread, fun n => ?_⟩
  rw [hzcpu, writeMode_of_destination hdest, ← hkept]
  exact (storesOnly_write u.cpu a v).2 n

/-! ### What is written is what the next READ of the code delivers -/

/-- Of a mode that gives back what is written to it, the READ after a WRITE delivers the Word and keeps the CPU
state. -/
def GivesBack (i : Instr) : Prop :=
  ∀ (v : Word) (c : Cpu),
    (readMode i ⟨(writeMode i v ⟨c, []⟩).cpu, []⟩).1 = v ∧
      (readMode i ⟨(writeMode i v ⟨c, []⟩).cpu, []⟩).2.cpu = (writeMode i v ⟨c, []⟩).cpu

theorem givesBack_reg (r : Fin 8) : GivesBack (.reg r) := fun v _ => ⟨writeMode_reg_register r v _, rfl⟩

theorem givesBack_indReg (r : Fin 8) : GivesBack (.indReg r) := fun v c => by
  simp [readMode, readIndReg_eq, writeMode, writeIndReg_eq]

theorem givesBack_sp : GivesBack .sp := fun _ _ => ⟨rfl, rfl⟩

theorem givesBack_pc : GivesBack .pc := fun _ _ => ⟨rfl, rfl⟩

theorem givesBack_o : GivesBack .o := fun _ _ => ⟨rfl, rfl⟩

/-- The modes of the codes 0x00..0x0F and 0x1B..0x1D give back what is written to them. -/
theorem exists_givesBack_of_code {n : Nat} (hn : n ≤ 0x0F ∨ (0x1B ≤ n ∧ n ≤ 0x1D)) :
    ∃ i, decode n = .ok i ∧ GivesBack i := by
  obtain hreg | ⟨hlow, hhigh⟩ | rfl | rfl | rfl :
    n < 8 ∨ (8 ≤ n ∧ n < 16) ∨ n = 0x1B ∨ n = 0x1C ∨ n = 0x1D := by omega
  · exact ⟨_, decode_reg ⟨n, hreg⟩, givesBack_reg _⟩
  · obtain ⟨r, rfl⟩ := Nat.exists_eq_add_of_le hlow
    exact ⟨_, decode_indReg ⟨r, by omega⟩, givesBack_indReg _⟩
  · exact ⟨_, decode_sp, givesBack_sp⟩
  · exact ⟨_, decode_pc, givesBack_pc⟩
  · exact ⟨_, decode_o, givesBack_o⟩

/-- Settles O51: the mode of each of these codes gives back what is written to it. -/
theorem writeIsVisibleToTheNextReadOfTheCode : Obligations.WriteIsVisibleToTheNextReadOfTheCode := by
  intro s n v w rest hn hs
  obtain ⟨i, hi, hback⟩ := exists_givesBack_of_code hn
  obtain ⟨hvalue, hkept⟩ := hback v s.cpu
  obtain ⟨t, u, ht, hu, hcpu, huvalue, hucpu⟩ := steps_write_read hs hi hi
  rw [← hcpu] at hvalue hkept
  exact ⟨t, u, ht, hu, huvalue.trans hvalue, hucpu.trans hkept⟩

/-! ### The next word -/

/-- A WRITE whose destination is the next word replaces it, and keeps PC. -/
theorem writeMode_replaces_nextWord {i : Instr} {c : Cpu} (hdest : destination i c = some (c.pc + 1)) (v : Word) :
    nextWordOf (writeMode i v ⟨c, []⟩).cpu = v := by
  rw [writeMode_of_destination hdest]
  exact c.mem.read_write_same _ v

theorem readNext_value (c : Cpu) : (readMode .next ⟨c, []⟩).1 = nextWordOf c := rfl

theorem readIndNext_value (c : Cpu) : (readMode .indNext ⟨c, []⟩).1 = c.mem.read (nextWordOf c).toNat := rfl

/-- Settles O55: the WRITE replaces the next word, and the READ delivers it. -/
theorem storeToTheNextWordIsSeenAtOnce : Obligations.StoreToTheNextWordIsSeenAtOnce := by
  intro s n i v w rest hi hdest hs
  obtain ⟨t, u, ht, hu, hcpu, hvalue, -⟩ := steps_write_read hs hi decode_next
  exact ⟨t, u, ht, hu, by rw [hvalue, hcpu, readNext_value, writeMode_replaces_nextWord hdest]⟩

/-- Settles O54: the next word is its own cell, so the READ delivers the address, and the WRITE replaces the next
word that both later READs use. -/
theorem nextWordAtItsOwnAddressIsReplaced : Obligations.NextWordAtItsOwnAddressIsReplaced := by
  intro s v w rest hown
  have hdest : destination .indNext s.cpu = some (s.cpu.pc + 1) := congrArg some hown
  refine ⟨fun hs => ?_, storeToTheNextWordIsSeenAtOnce s _ _ v w rest decode_indNext hdest, fun hs => ?_⟩
  · obtain ⟨t, ht, -, hvalue, -⟩ := step_asksRead hs decode_indNext
    refine ⟨t, ht, ?_⟩
    calc t.rdata = s.cpu.mem.read (nextWordOf s.cpu).toNat := hvalue
      _ = nextWordOf s.cpu := congrArg (fun a : Word => s.cpu.mem.read a.toNat) hown
      _ = s.cpu.pc + 1 := hown
  · obtain ⟨t, u, ht, hu, hcpu, hvalue, -⟩ := steps_write_read hs decode_indNext decode_indNext
    have hnext : nextWordOf t.cpu = v := hcpu ▸ writeMode_replaces_nextWord hdest v
    exact ⟨t, u, ht, hu, by rw [hvalue, readIndNext_value, hnext]⟩

end Sys2Proof.Machine
end
